-- ==== Sys2Proof/Word.lean ====
section
/-! DEFINITION. The word and byte types of the deepnote voice core (spec rules R9, R11, R12). Every port word, operand
and f32 register is 32 bits; an f32 is named by its binary32 bit pattern. -/

namespace Sys2Proof

/-- One 32-bit word of a port, bits 31 (most significant) down to 0 (R11, R58). -/
abbrev Word := BitVec 32

/-- One byte of a byte-wide transport (R57). -/
abbrev Byte := BitVec 8

/-- An IEEE 754 binary32 value, given by its bit pattern: bit 31 sign, bits 30:23 biased exponent, bits 22:0 fraction
(R12, R97). `f32_of` and `bits` of the spec are both the identity on this representation. -/
abbrev F32 := Word

end Sys2Proof
end

