-- ==== Sys2Proof/Config.lean ====
section
/-! DEFINITION. What is fixed for a run of the deepnote voice core (spec rules R8, R9, R10, R17): the constants of the
source, and the two things the spec leaves open, each an opaque constant without a body: the bits of a produced NaN
(R104) and the raw material of the oscillator waveform (R10, R136). -/

namespace Sys2Proof

/-- `MAX_OSCILLATORS`, the hard capacity of the oscillator bank (R8). -/
def Config.maxOscillators : Nat := 16

/-- `DEFAULT_DETUNE_HZ = 2.5` (R8); the assembler supplies it to a four-operand INIT (R77, R93). -/
def Config.defaultDetuneHz : F32 := 0x40200000

/-- `TARGET_FREQUENCY_TOLERANCE = 1.0` Hz, the convergence window (R8, R185). -/
def Config.targetFrequencyTolerance : F32 := 0x3F800000

/-- `LFO_AMPLITUDE = 0.5`, not user-configurable (R8, R133). -/
def Config.lfoAmplitude : F32 := 0x3F000000

/-- The command interface version (R1, R9). No command reads it. -/
def Config.interfaceVersion : Nat := 1

/-- FREE VALUE (R104, U2; log entry 2): sign (bit 22) and payload (bits 21:0) of the `k`-th NaN the machine lets out of a
port. Nothing constrains it. -/
opaque Config.freeNaN : Nat → BitVec 23

/-- FREE VALUE (R10, R136, U6; log entry 3): an unconstrained function of the phase, from which
`Sys2Proof.Machine.oscWave` makes the OPEN parameter `OSC_WAVE` by folding in the two assumptions R136 allows. -/
opaque Config.oscWaveRaw : F32 → F32

end Sys2Proof
end

