-- ==== Sys2Proof/Syntax.lean ====
section
/-! DEFINITION. The seven commands of the deepnote voice core, one constructor per row of spec/opcode_table.json
(spec rules R74, R78, R216). Operand words stand in the order of R78. -/

namespace Sys2Proof

/-- A command with its operands. `n` is a u32, every other operand word is the pattern of an f32 (R76, R78). -/
inductive Instr where
  /-- `INIT n, fstart, fs, flfo, d` (R147): configure the voice. -/
  | init (n : Word) (fstart fs flfo d : F32)
  /-- `SETT f` (R155): set the target frequency. -/
  | sett (f : F32)
  /-- `SETS f` (R159): set the start frequency. -/
  | sets (f : F32)
  /-- `DETUNE d` (R163): recompute the detune offsets. -/
  | detune (d : F32)
  /-- `PROC m, c1, c2` (R171): produce one output sample. -/
  | proc (m c1 c2 : F32)
  /-- `RDSR idx` (R208): read the status register of index `idx` (header bits 15:8). -/
  | rdsr (idx : BitVec 8)
  /-- `ISAT` (R212): is the voice at its target? -/
  | isat
  deriving DecidableEq, Repr

end Sys2Proof
end

