-- ==== Sys2Proof/Machine/State.lean ====
section
/-! DEFINITION. The whole state of one deepnote voice core (spec rules R25 to R46), its three ports and its reset input
(R55), the outcome reasons, and the state after reset (R43, R241, R242). -/

namespace Sys2Proof.Machine

/-- The `STATE` register (R30): 2 bits with three values. The code 3 is reserved and never written (U9);
no value of this type stands for it (log entry 12). -/
inductive SweepState where
  /-- 0, `PendingTransitToTarget`: just (re)targeted, animation not yet started. -/
  | pending
  /-- 1, `InTransitToTarget`: actively sweeping. -/
  | inTransit
  /-- 2, `AtTarget`: converged, holding. -/
  | atTarget
  deriving DecidableEq, Repr

/-- What the outside presents to the block, in order of arrival (R55, R63, R241 to R244). -/
inductive InputEvent where
  /-- One word at the command port. The port does not record which agent sent it (R75; log
  entry 8). -/
  | word (w : Word)
  /-- Reset asserted and released. -/
  | reset
  deriving DecidableEq, Repr

/-- One response: the words `r0` (INFO and STATUS) and `r1` (the value) (R79, R80, R82). -/
structure Response where
  r0 : Word
  r1 : Word
  deriving DecidableEq, Repr

/-- The nine-word trace record of an accepted PROC, words 0 to 8 in order (R195). -/
structure TraceRecord where
  start : Word
  target : Word
  stateBefore : Word
  stateAfter : Word
  lfoValue : Word
  shaped : Word
  unconstrained : Word
  clamped : Word
  output : Word
  deriving DecidableEq, Repr

/-- The state of one DNV: the registers of R25, the ports of R55, and one counter of the model's own. -/
structure State where
  /-- `INITIALISED` (R28). -/
  initialised : Bool
  /-- `STATE` (R30). -/
  sweep : SweepState
  /-- `START_FREQ` (R31). -/
  startFreq : F32
  /-- `TARGET_FREQ` (R32). -/
  targetFreq : F32
  /-- `CURRENT_FREQ` (R33). -/
  currentFreq : F32
  /-- `OSC_COUNT`, 5 bits unsigned (R34; log entry 13). -/
  oscCount : BitVec 5
  /-- `LFO_BASE_FREQ` (R35). -/
  lfoBaseFreq : F32
  /-- `SAMPLE_RATE` (R36). -/
  sampleRate : F32
  /-- `LFO_PHASE` (R37). -/
  lfoPhase : F32
  /-- `OSC_PHASE[0..15]` (R38). -/
  oscPhase : Vector F32 16
  /-- `DETUNE_OFFSET[0..15]` (R39). -/
  detuneOffset : Vector F32 16
  /-- The command port and the reset input: what has been presented and not yet taken, oldest first. The decoder stands
  at a header word, the first of the list; the words of a command that has not all arrived stay here (R58, R242;
  log entry 5). -/
  inputs : List InputEvent
  /-- The response port: the responses produced since reset, oldest first (R79; log entry 6). -/
  responses : List Response
  /-- The trace port: the records emitted since reset, oldest first (R195, R196; log entry 6). No rule reads
  it. -/
  trace : List TraceRecord
  /-- The MODEL's own field, no register of the spec: how many NaN draws have been used (R104; log entry 2). -/
  nanDraws : Nat
  deriving DecidableEq, Repr

/-- Reasons to stop with a fault. There are none, and the type has no constructor: a rejection is a response (R217), no
numeric event raises anything (R222), and every command terminates (R262). Safe: nothing is hidden behind it. -/
inductive Fault where
  deriving DecidableEq, Repr

/-- Reasons to refuse a command. -/
inductive Refusal where
  /-- Raised by `exec`'s arm of a command that has no meaning in the model yet; safe, since the machine then stops. No arm
  raises it: every command of the table has its meaning. -/
  | notModelled (mnemonic : String)
  deriving DecidableEq, Repr

/-- The state right after reset (R241, R242): `INITIALISED = 0`, the command port empty and expecting a header, no
response and no trace word pending. The spec leaves every other register unspecified; each is zero here, and `STATE`
Pending. DESIGN CHOICE, unsafe, log entry 1. -/
def State.reset : State where
  initialised := false
  sweep := .pending
  startFreq := 0
  targetFreq := 0
  currentFreq := 0
  oscCount := 0
  lfoBaseFreq := 0
  sampleRate := 0
  lfoPhase := 0
  oscPhase := Vector.replicate 16 0
  detuneOffset := Vector.replicate 16 0
  inputs := []
  responses := []
  trace := []
  nanDraws := 0

end Sys2Proof.Machine
end

