-- ==== Sys2Proof/Machine/Flags.lean ====
section
/-! DEFINITION. The status bits of the machine: the flag `INITIALISED` (spec rule R28), the code of `STATE` (R30, D37), and
the STATUS word that shows both (R56, R209). There are no condition codes and no sticky error flags, and no command sets a
flag as a side effect (R29). -/

namespace Sys2Proof.Machine

/-- The 2-bit code of `STATE` (R30). -/
def stateCode : SweepState → BitVec 2
  | .pending => 0
  | .inTransit => 1
  | .atTarget => 2

/-- `zext_32(STATE)`, as the trace record shows it (R195). -/
def stateWord (x : SweepState) : Word := (stateCode x).setWidth 32

/-- The STATUS word: bit 0 `INITIALISED`, bits 2:1 `STATE` while it is 1, else zero (R56, R209). -/
def statusWord (s : State) : Word :=
  if s.initialised then stateWord s.sweep <<< 1 ||| 1 else 0

end Sys2Proof.Machine
end

