-- ==== Sys2Proof/Machine/Float.lean ====
section
/-! DEFINITION. The f32 primitives of spec rules R97 to R105: IEEE 754 binary32 arithmetic on bit patterns.

Every finite binary32 is a whole number of units of 2^-149, so a result is computed exactly, as an integer or a quotient
of integers in that unit, and rounded once by `roundMag`. All NaNs a primitive produces are ONE value, held as the quiet
pattern `nan` (U2 of spec/93_implementation_defined.md allows a model to treat all NaNs as one value); where such a value
leaves the machine, `portBits` gives it free bits (log entry 2). -/

namespace Sys2Proof.Machine

/-! ### Patterns and classes (R12, R97) -/

/-- Bit 31 of the pattern: the sign, set for negative. -/
def signBit (v : F32) : Bool := v.msb

/-- Bits 30:0 of the pattern, as a number. -/
def magPattern (v : F32) : Nat := v.toNat % 2 ^ 31

/-- The magnitude pattern of an infinity. -/
def infPattern : Nat := 0x7F800000

/-- The pattern of a sign and a magnitude pattern. -/
def packF32 (neg : Bool) (p : Nat) : F32 := BitVec.ofNat 32 ((if neg then 2 ^ 31 else 0) + p)

/-- The one NaN value the primitives produce (R104; log entry 2). -/
def nan : F32 := 0x7FC00000

def isNaN (v : F32) : Bool := infPattern < magPattern v

def isInf (v : F32) : Bool := magPattern v == infPattern

def isZero (v : F32) : Bool := magPattern v == 0

/-- `finite(v)`: neither an infinity nor a NaN (R12). -/
def finite (v : F32) : Bool := magPattern v < infPattern

/-- The number of units of 2^-149 in the magnitude pattern `p`: a subnormal is its fraction, a normal number is 2^23 plus
its fraction, shifted by its biased exponent less one. The formula gives infinity 2^277, above every finite value. -/
def magnitude (p : Nat) : Nat :=
  if p / 2 ^ 23 = 0 then p % 2 ^ 23 else (2 ^ 23 + p % 2 ^ 23) * 2 ^ (p / 2 ^ 23 - 1)

/-- The numeric value of a pattern that is no NaN, in units of 2^-149. -/
def value (v : F32) : Int :=
  if signBit v then -(magnitude (magPattern v) : Int) else (magnitude (magPattern v) : Int)

/-! ### Rounding (R98) -/

/-- The magnitude pattern nearest to the quotient `num / den` of units of 2^-149, ties to even, once; subnormals gradually;
a magnitude that rounds above the largest finite one is infinity (R98). `k` is the power of two of the result's last
place, so that the quotient has 24 bits or, at `k = 0`, fewer. -/
@[irreducible] def roundMag (num den : Nat) : Nat :=
  let k := Nat.log2 (num / den) - 23
  let unit := den * 2 ^ k
  let m := num / unit
  let r := num % unit
  let up := if unit < 2 * r then 1 else if 2 * r = unit then m % 2 else 0
  min (k * 2 ^ 23 + (m + up)) infPattern

/-! ### Arithmetic (R99 to R102) -/

/-- The value with its sign bit inverted. -/
def fneg (v : F32) : F32 := packF32 (!signBit v) (magPattern v)

/-- `fabs(a)` clears the sign bit, also of a NaN (R102). -/
def fabs (v : F32) : F32 := packF32 false (magPattern v)

/-- `a + b` rounded once (R99). An exact zero sum is `-0.0` only when both operands are negative zeros. -/
@[irreducible] def fadd (a b : F32) : F32 :=
  if isNaN a || isNaN b then nan
  else if isInf a then (if isInf b && signBit a != signBit b then nan else a)
  else if isInf b then b
  else
    let z := value a + value b
    packF32 (if z = 0 then signBit a && signBit b else z < 0) (roundMag z.natAbs 1)

/-- `a − b` rounded once (R99). -/
def fsub (a b : F32) : F32 := fadd a (fneg b)

/-- `a × b` rounded once; the sign is the exclusive-or of the signs, also for zero results (R100). -/
@[irreducible] def fmul (a b : F32) : F32 :=
  if isNaN a || isNaN b then nan
  else if isInf a || isInf b then
    (if isZero a || isZero b then nan else packF32 (signBit a != signBit b) infPattern)
  else
    packF32 (signBit a != signBit b)
      (roundMag (magnitude (magPattern a) * magnitude (magPattern b)) (2 ^ 149))

/-- `a ÷ b` rounded once (R101). Division never traps. -/
@[irreducible] def fdiv (a b : F32) : F32 :=
  if isNaN a || isNaN b then nan
  else if isInf a then (if isInf b then nan else packF32 (signBit a != signBit b) infPattern)
  else if isInf b then packF32 (signBit a != signBit b) 0
  else if isZero b then (if isZero a then nan else packF32 (signBit a != signBit b) infPattern)
  else
    packF32 (signBit a != signBit b)
      (roundMag (magnitude (magPattern a) * 2 ^ 149) (magnitude (magPattern b)))

/-- The f32 of an integer (R102): exact for every integer the machine converts, −8 to 8. -/
def i2f (k : Int) : F32 := packF32 (k < 0) (roundMag (k.natAbs * 2 ^ 149) 1)

/-- `ffloor(a)`: the largest integer not above `a`, as an f32 (R102). Infinities and zeros are returned as they are. -/
@[irreducible] def ffloor (a : F32) : F32 :=
  if isNaN a then nan
  else if isInf a || isZero a then a
  else i2f (value a / 2 ^ 149)

/-! ### Comparisons (R103): by numeric value, false whenever an operand is a NaN -/

def flt (a b : F32) : Bool := !isNaN a && !isNaN b && decide (value a < value b)

def fle (a b : F32) : Bool := !isNaN a && !isNaN b && decide (value a ≤ value b)

def fgt (a b : F32) : Bool := flt b a

def fge (a b : F32) : Bool := fle b a

def feq (a b : F32) : Bool := !isNaN a && !isNaN b && decide (value a = value b)

/-! ### Constants of the formulas -/

def f0 : F32 := 0x00000000

def f1 : F32 := 0x3F800000

def f2 : F32 := 0x40000000

def f3 : F32 := 0x40400000

def fHalf : F32 := 0x3F000000

/-! ### The bits of a value at a port (R104) -/

/-- The quiet NaN whose sign is bit 22 of `d` and whose payload is bits 21:0 of `d` (R104). -/
def quietNaN (d : BitVec 23) : Word :=
  (d.extractLsb' 22 1).setWidth 32 <<< 31 ||| 0x7FC00000 ||| (d.extractLsb' 0 22).setWidth 32

/-- A quiet NaN of free sign and payload, drawn by number (R104; log entry 2). -/
def drawNaN (k : Nat) : Word := quietNaN (Config.freeNaN k)

/-- `bits(v)` of a computed value `v` that leaves the machine: its pattern, or for a NaN the bits of draw `k` (R104). -/
def portBits (k : Nat) (v : F32) : Word := if isNaN v then drawNaN k else v

end Sys2Proof.Machine
end

