-- ==== Sys2Proof/Machine/Primitives.lean ====
section
/-! DEFINITION. Range, Scaler and UnitBezierShaper, the stateless functions of spec rules R106 to R124. -/

namespace Sys2Proof.Machine

/-! ### Range (R106 to R110) -/

/-- A closed interval `[low, high]`, a value and no state (R110). -/
structure Range where
  low : F32
  high : F32
  deriving DecidableEq, Repr

/-- `Range.new(a, b)`: reversed bounds are swapped, on the test `fgt(a, b)` alone (R106). -/
def rangeNew (a b : F32) : Range := if fgt a b then ⟨b, a⟩ else ⟨a, b⟩

/-- `Range.length(r) = fsub(r.high, r.low)` (R107). -/
def rangeLength (r : Range) : F32 := fsub r.high r.low

/-- `Range.contains(r, v)`, both ends included; false for a NaN (R108). -/
def rangeContains (r : Range) (v : F32) : Bool := fle r.low v && fle v r.high

/-- `Range.constrain(r, v)`: clamp; a value inside, or a NaN, is returned bit for bit (R109). -/
def rangeConstrain (r : Range) (v : F32) : F32 :=
  if flt v r.low then r.low else if fgt v r.high then r.high else v

/-! ### Scaler (R112 to R116) -/

/-- The precondition of a Scaler: its input range has a positive length (R114). -/
abbrev ScalerInputOk (input : Range) : Prop := fgt (rangeLength input) f0 = true

/-- A pair of ranges (R112) together with the precondition of R114: a Scaler whose input range has zero length has no
meaning (U1), and cannot be built (log entry 9). -/
structure Scaler where
  input : Range
  output : Range
  inputOk : ScalerInputOk input

/-- Build a Scaler; the precondition of R114 refused by `none`. -/
def scalerNew (input output : Range) : Option Scaler :=
  if h : ScalerInputOk input then some ⟨input, output, h⟩ else none

/-- `Scaler.scale(s, v)`, left to right as the source's formula is written, four roundings (R113). -/
def scalerScale (s : Scaler) (v : F32) : F32 :=
  fadd (fmul (fdiv (fsub v s.input.low) (rangeLength s.input)) (rangeLength s.output)) s.output.low

/-- The range `[0, 1]` that every Scaler of the machine takes as its input (R115). -/
def unitRange : Range := rangeNew f0 f1

theorem unitRange_inputOk : ScalerInputOk unitRange := by decide +kernel

/-- The only Scaler the machine builds: from `[0, 1]` onto a window (R115). -/
def windowScaler (window : Range) : Scaler := ⟨unitRange, window, unitRange_inputOk⟩

/-! ### UnitBezierShaper (R117 to R123) -/

/-- `Shaper.shape(y2, y3, t)`: the two guards, then the cubic Bernstein polynomial with `y1 = 0`, `y4 = 1` in the nesting
of R119. -/
def shape (y2 y3 t : F32) : F32 :=
  if feq t f0 then f0
  else if feq t f1 then f1
  else
    let u := fsub f1 t
    let a := fmul (fmul (fmul (fmul f3 u) u) t) y2
    let b := fmul (fmul (fmul (fmul f3 u) t) t) y3
    let c := fmul (fmul t t) t
    fadd (fadd a b) c

end Sys2Proof.Machine
end

