-- ==== Sys2Proof/Machine/Generator.lean ====
section
/-! DEFINITION. The generators (spec rules R125 to R137) and the detune distribution (R138 to R146). -/

namespace Sys2Proof.Machine

/-! ### The generator (R125 to R131) -/

/-- `Ramp(p) = fsub(fmul(2.0, p), 1.0)` (R126). -/
def ramp (p : F32) : F32 := fsub (fmul f2 p) f1

/-- The phase increment `fdiv(f, fs)`, computed afresh in every step (R127). -/
def phaseIncrement (f fs : F32) : F32 := fdiv f fs

/-- The phase lies in `[0, 1)`: `fle(+0.0, y) and flt(y, 1.0)` (R128). -/
def inUnit (y : F32) : Bool := fle f0 y && flt y f1

/-- The wrap of R128, R129: the fractional part toward minus infinity, or `+0.0` when that is not in `[0, 1)`. -/
def wrapPhase (x : F32) : F32 :=
  let y := fsub x (ffloor x)
  if inUnit y then y else f0

/-- The next phase of a generator at phase `p` and frequency `f` (R128). -/
def nextPhase (p f fs : F32) : F32 := wrapPhase (fadd p (phaseIncrement f fs))

/-- The two results of a generator step: this sample's output and the next phase. -/
structure GenResult where
  output : F32
  phase : F32
  deriving DecidableEq, Repr

/-- `GenStep(W, p, f, fs)`: the output is taken from the phase before the advance (R128, R130). -/
def genStep (wave : F32 → F32) (p f fs : F32) : GenResult := ⟨wave p, nextPhase p f fs⟩

/-! ### The LFO instance (R133) -/

/-- The LFO's waveform `fmul(0.5, Ramp(p))` (R133). -/
def lfoWave (p : F32) : F32 := fmul Config.lfoAmplitude (ramp p)

/-- The normalised ramp `t = fadd(l, 0.5)` of an LFO output `l` (R133, R177; log entry 16). -/
def normalise (l : F32) : F32 := fadd l fHalf

/-! ### The audio waveform (R10, R136, R137) -/

/-- The largest magnitude pattern `A` of which `16 × A` is a finite f32: the largest finite f32 divided by 16 (R136). -/
def waveBoundPattern : Nat := 0x7D7FFFFF

/-- Fold a free pattern into the samples R136 (b) allows: a magnitude up to `A` stays as it is, a larger one (infinities
and NaNs among them) loses exponent bit 30 and with it comes below 2.0. -/
def boundSample (v : F32) : F32 :=
  if magPattern v ≤ waveBoundPattern then v else packF32 (signBit v) (magPattern v % 2 ^ 30)

/-- `OSC_WAVE`, the OPEN waveform of the audio oscillators (R10, R136): on `[0, 1)` any function at all whose samples are
finite and bounded as R136 (b) says, elsewhere any function at all. Log entry 3. -/
def oscWave (p : F32) : F32 :=
  if inUnit p then boundSample (Config.oscWaveRaw p) else Config.oscWaveRaw p

/-- `OSC_WAVE_REF(p) = Ramp(p)`, the reference instance of the spec's test vectors (R10, R137). No command uses it. -/
def oscWaveRef (p : F32) : F32 := ramp p

/-! ### The detune distribution (R138 to R146) -/

/-- `half(N) = N div 2` (R139). -/
def half (n : Nat) : Nat := n / 2

/-- The detune multiple `k(i, N)` of slot `i` in a bank of `N` (R140). -/
def detuneMultiple (i n : Nat) : Int :=
  if n = 1 then 0 else (i : Int) - (half n : Int) + (if half n ≤ i then 1 else 0)

/-- The offset of slot `i`: one multiplication of the exactly converted multiple by `d` (R144). -/
def detuneOffsetOf (i n : Nat) (d : F32) : F32 := fmul (i2f (detuneMultiple i n)) d

/-- `DetuneAll(d)` on the offset file: the active slots are written, the others kept (R143, R146). -/
def detuneAll (n : Nat) (d : F32) (offsets : Vector F32 16) : Vector F32 16 :=
  Vector.ofFn (fun i => if i.val < n then detuneOffsetOf i.val n d else offsets[i])

/-! ### The oscillator bank (R188 to R191) -/

/-- The frequency of slot `i` in this sample: `fadd(CURRENT_FREQ, DETUNE_OFFSET[i])`, not clamped (R134, R188). -/
def oscFrequency (current offset : F32) : F32 := fadd current offset

/-- Advance every active slot one sample; the inactive slots keep their phase (R189, R191). -/
def bankAdvance (n : Nat) (current fs : F32) (offsets phases : Vector F32 16) : Vector F32 16 :=
  Vector.ofFn (fun i =>
    if i.val < n then nextPhase phases[i] (oscFrequency current offsets[i]) fs else phases[i])

/-- Sum the outputs of the active slots, each taken from its phase before the advance, in ascending index from a `+0.0`
accumulator (R130, R190). -/
def bankSum (wave : F32 → F32) (n : Nat) (phases : Vector F32 16) : F32 :=
  ((phases.toList.take n).map wave).foldl fadd f0

end Sys2Proof.Machine
end

