-- ==== Sys2Proof/Machine/Operands.lean ====
section
/-! DEFINITION. The operand forms of the commands: the validation of u32 and f32 operands (spec rules R148, R149, R157,
R161, R164, R172, R219), and the status-register index of RDSR (R56, R72). -/

namespace Sys2Proof.Machine

/-! ### Validation -/

/-- `oscillator_count`: `1 ≤ n ≤ 16`, unsigned (R138, R148). -/
def countOk (n : Word) : Bool := 1 ≤ n.toNat && n.toNat ≤ Config.maxOscillators

/-- A frequency or a multiplier: finite and `fge(f, +0.0)`; both zeros pass (R148, R157, R161, R172). -/
def frequencyOk (f : F32) : Bool := finite f && fge f f0

/-- A sample rate: finite and `fgt(fs, +0.0)` (R148). -/
def sampleRateOk (fs : F32) : Bool := finite fs && fgt fs f0

/-- A detune amount: finite, of either sign (R148, R164). -/
def detuneOk (d : F32) : Bool := finite d

/-- The number of the first operand of INIT that fails, checked in the order `x[1]` to `x[5]` (R149, R168). -/
def initOffence (n : Word) (fstart fs flfo d : F32) : Option (BitVec 8) :=
  if !countOk n then some 1
  else if !frequencyOk fstart then some 2
  else if !sampleRateOk fs then some 3
  else if !frequencyOk flfo then some 4
  else if !detuneOk d then some 5
  else none

/-! ### Status-register indices -/

/-- The locations of the status-register index space (R56). -/
inductive StatusReg where
  | status
  | startFreq
  | targetFreq
  | currentFreq
  | oscCount
  | lfoBaseFreq
  | sampleRate
  | lfoPhase
  | detuneOffset (i : Fin 16)
  | oscPhase (i : Fin 16)
  deriving DecidableEq, Repr

/-- The index map of R56; a reserved index names no location. -/
def statusRegOf (idx : BitVec 8) : Option StatusReg :=
  match idx.toNat with
  | 0x00 => some .status
  | 0x01 => some .startFreq
  | 0x02 => some .targetFreq
  | 0x03 => some .currentFreq
  | 0x04 => some .oscCount
  | 0x05 => some .lfoBaseFreq
  | 0x06 => some .sampleRate
  | 0x08 => some .lfoPhase
  | k =>
    if h : 0x10 ≤ k ∧ k < 0x20 then some (.detuneOffset ⟨k - 0x10, by omega⟩)
    else if h : 0x20 ≤ k ∧ k < 0x30 then some (.oscPhase ⟨k - 0x20, by omega⟩)
    else none

end Sys2Proof.Machine
end

