-- ==== Sys2Proof/Machine/Ops.lean ====
section
/-! DEFINITION. The named operations over the state: the response and trace ports (spec rules R79 to R82, R195), the
rejection, which is the machine's only kind of exception and is one shared operation (R217, R218, R228), the read of a
status register (R207), and reset (R241 to R244). There is no return from a rejection (R229) and no memory (R53). -/

namespace Sys2Proof.Machine

/-! ### Responses -/

/-- The response words: `r0 = zext_32(info) << 8 | status`, `r1 = value` (R80, R82). -/
def responseOf (status info : BitVec 8) (value : Word) : Response :=
  ⟨info.setWidth 32 <<< 8 ||| status.setWidth 32, value⟩

/-- `respond(status, info, value)`: the one response of a command, after those already on the port (R79, R82). -/
def respond (status info : BitVec 8) (value : Word) (s : State) : State :=
  { s with responses := s.responses ++ [responseOf status info value] }

/-- Status code 0, `OK` (R81). -/
def statusOk : BitVec 8 := 0

/-- The response of an accepted command. -/
def accept (value : Word) (s : State) : State := respond statusOk 0 value s

/-! ### Rejections -/

/-- The three rejections; there are no others (R218). -/
inductive Rejection where
  | invalidParameter
  | notInitialised
  | illegalCommand
  deriving DecidableEq, Repr

/-- The status code of a rejection (R81, R218). -/
def rejectionCode : Rejection → BitVec 8
  | .invalidParameter => 1
  | .notInitialised => 2
  | .illegalCommand => 3

/-- `raise <Rejection>(info)`: the command ends, no register is written, no phase advances, no trace record is emitted, and
the response carries the code, the info byte and the value zero (R217). Nothing is saved and nothing is vectored (R228). -/
def raise (r : Rejection) (info : BitVec 8) (s : State) : State := respond (rejectionCode r) info 0 s

/-- The check every command but INIT and `RDSR 0x00` makes first: on an uninitialised voice it is rejected and its operands
are not examined (R220, R224). -/
def whenInitialised (s : State) (k : State → State) : State :=
  if s.initialised then k s else raise .notInitialised 0 s

/-- The check of one operand, number `number`, after that (R219, R224). -/
def whenValid (ok : Bool) (number : BitVec 8) (s : State) (k : State → State) : State :=
  if ok then k s else raise .invalidParameter number s

/-! ### The trace port -/

/-- `trace(record)`: one record on the trace port (R195). -/
def emitTrace (r : TraceRecord) (s : State) : State := { s with trace := s.trace ++ [r] }

/-! ### Status registers -/

/-- `SrRead(idx)`: the 32-bit content of a location, without side effect (R56, R207). -/
def srRead (r : StatusReg) (s : State) : Word :=
  match r with
  | .status => statusWord s
  | .startFreq => s.startFreq
  | .targetFreq => s.targetFreq
  | .currentFreq => s.currentFreq
  | .oscCount => s.oscCount.setWidth 32
  | .lfoBaseFreq => s.lfoBaseFreq
  | .sampleRate => s.sampleRate
  | .lfoPhase => s.lfoPhase
  | .detuneOffset i => s.detuneOffset[i]
  | .oscPhase i => s.oscPhase[i]

/-! ### Reset -/

/-- Reset, with the input that follows it (R241 to R244): the state right after reset, both output ports empty. The count of
NaN draws, which is no state of the machine, runs on. The values of the registers the spec leaves unspecified are those of
`State.reset` (log entry 1), and reset falls between commands (log entry 5). -/
def applyReset (following : List InputEvent) (s : State) : State :=
  { State.reset with inputs := following, nanDraws := s.nanDraws }

end Sys2Proof.Machine
end

