-- ==== Sys2Proof/Machine/Control.lean ====
section
/-! DEFINITION. The control-plane commands INIT, SETT, SETS and DETUNE (spec rules R147 to R170). Each definition is one
command's meaning, a function of its operand words and the state after its words were consumed. -/

namespace Sys2Proof.Machine

/-! ### INIT (R147 to R154, R168) -/

/-- The registers an accepted INIT leaves: every one is overwritten (R44, R150 to R154). -/
def configureVoice (n : Word) (fstart fs flfo d : F32) (s : State) : State :=
  { s with
    initialised := true
    sweep := .pending
    startFreq := fstart
    targetFreq := fstart
    currentFreq := fstart
    oscCount := n.setWidth 5
    lfoBaseFreq := flfo
    sampleRate := fs
    lfoPhase := f0
    oscPhase := Vector.replicate 16 f0
    detuneOffset := detuneAll n.toNat d (Vector.replicate 16 f0) }

/-- INIT (R168): the first offending operand is reported; never NOT_INITIALISED. -/
def execInit (n : Word) (fstart fs flfo d : F32) (s : State) : Host.Outcome State Fault Refusal :=
  .next (match initOffence n fstart fs flfo d with
    | some number => raise .invalidParameter number s
    | none => accept 0 (configureVoice n fstart fs flfo d s))

/-! ### SETT (R155 to R158) -/

/-- The new sweep starts where the voice is and heads for `f`, from Pending (R156). -/
def retarget (f : F32) (s : State) : State :=
  { s with startFreq := s.currentFreq, targetFreq := f, sweep := .pending }

/-- SETT (R156). -/
def execSett (f : F32) (s : State) : Host.Outcome State Fault Refusal :=
  .next (whenInitialised s fun s => whenValid (frequencyOk f) 1 s fun s => accept 0 (retarget f s))

/-! ### SETS (R159 to R162) -/

/-- The voice jumps to `f` and restarts the sweep to its unchanged target, from Pending (R160). -/
def restartFrom (f : F32) (s : State) : State :=
  { s with startFreq := f, currentFreq := f, sweep := .pending }

/-- SETS (R160). -/
def execSets (f : F32) (s : State) : Host.Outcome State Fault Refusal :=
  .next (whenInitialised s fun s => whenValid (frequencyOk f) 1 s fun s => accept 0 (restartFrom f s))

/-! ### DETUNE (R163 to R167) -/

/-- The offsets of the active slots anew; everything else is kept (R143, R165). -/
def redetune (d : F32) (s : State) : State :=
  { s with detuneOffset := detuneAll s.oscCount.toNat d s.detuneOffset }

/-- DETUNE (R165). -/
def execDetune (d : F32) (s : State) : Host.Outcome State Fault Refusal :=
  .next (whenInitialised s fun s => whenValid (detuneOk d) 1 s fun s => accept 0 (redetune d s))

end Sys2Proof.Machine
end

