-- ==== Sys2Proof/Machine/Process.lean ====
section
/-! DEFINITION. The per-sample command PROC (spec rules R171 to R206), in the ten steps of the source. -/

namespace Sys2Proof.Machine

/-! ### Step 1 (R175) -/

/-- `STATE` after step 1: a voice in Pending enters InTransit. -/
def enterSweep (x : SweepState) : SweepState :=
  match x with
  | .pending => .inTransit
  | .inTransit => .inTransit
  | .atTarget => .atTarget

/-- `LFO_PHASE` after step 1: a voice in Pending starts its ease curve from the beginning. -/
def enterPhase (x : SweepState) (phase : F32) : F32 :=
  match x with
  | .pending => f0
  | .inTransit => phase
  | .atTarget => phase

/-! ### Steps 5 to 8 (R180 to R187) -/

/-- Step 6: the shaped value, inverted for a descending sweep (R182). -/
def directed (start target sh : F32) : F32 := if fgt start target then fsub f1 sh else sh

/-- Step 7: the candidate frequency, before any clamp (R183). -/
def candidate (start target sh : F32) : F32 :=
  scalerScale (windowScaler (rangeNew start target)) (directed start target sh)

/-- Step 8, first half: within the tolerance of the target, inclusive, or outside the window; a NaN candidate is outside
(R184, R185). -/
def converged (start target cand : F32) : Bool :=
  fle (fabs (fsub cand target)) Config.targetFrequencyTolerance ||
    !rangeContains (rangeNew start target) cand

/-- What steps 5 to 8 yield: `STATE`, `CURRENT_FREQ`, and the trace's unconstrained word. -/
structure SweepResult where
  sweep : SweepState
  current : F32
  unconstrained : Word
  deriving DecidableEq, Repr

/-- Steps 5 to 8 on the `STATE` after step 1, which is never Pending (R180); `draw` numbers the bits a NaN candidate shows
in the trace. -/
def sweepStep (draw : Nat) (x : SweepState) (start target sh : F32) : SweepResult :=
  match x with
  | .atTarget => ⟨.atTarget, target, target⟩
  | .pending | .inTransit =>
    let cand := candidate start target sh
    if converged start target cand then ⟨.atTarget, target, portBits draw cand⟩
    else ⟨.inTransit, rangeConstrain (rangeNew start target) cand, portBits draw cand⟩

/-! ### The whole command (R193) -/

/-- Step 2: the LFO's frequency in this sample, not stored (R176). -/
def lfoFrequency (s : State) (m : F32) : F32 := fmul s.lfoBaseFreq m

/-- Step 3: the LFO's step in this sample, from the phase step 1 leaves (R177). -/
def lfoStep (s : State) (m : F32) : GenResult :=
  genStep lfoWave (enterPhase s.sweep s.lfoPhase) (lfoFrequency s m) s.sampleRate

/-- Step 3: the normalised ramp `t` of this sample (R177). -/
def rampOf (s : State) (m : F32) : F32 := normalise (lfoStep s m).output

/-- Step 4: the shaped value of this sample (R179). -/
def shapedOf (s : State) (m c1 c2 : F32) : F32 := shape c1 c2 (rampOf s m)

/-- Steps 5 to 8 of this sample. -/
def sweepOf (s : State) (m c1 c2 : F32) : SweepResult :=
  sweepStep (s.nanDraws + 2) (enterSweep s.sweep) s.startFreq s.targetFreq (shapedOf s m c1 c2)

/-- Step 9: the output word of this sample, for a waveform `wave` (R190, R192). -/
def outputOf (wave : F32 → F32) (s : State) : Word :=
  portBits (s.nanDraws + 3) (bankSum wave s.oscCount.toNat s.oscPhase)

/-- Step 10: the trace record (R195). -/
def traceOf (wave : F32 → F32) (m c1 c2 : F32) (s : State) : TraceRecord where
  start := s.startFreq
  target := s.targetFreq
  stateBefore := stateWord s.sweep
  stateAfter := stateWord (sweepOf s m c1 c2).sweep
  lfoValue := portBits s.nanDraws (rampOf s m)
  shaped := portBits (s.nanDraws + 1) (shapedOf s m c1 c2)
  unconstrained := (sweepOf s m c1 c2).unconstrained
  clamped := (sweepOf s m c1 c2).current
  output := outputOf wave s

/-- The registers an accepted PROC leaves (R194), and the four NaN draws it may have used. -/
def advanceVoice (m c1 c2 : F32) (s : State) : State :=
  { s with
    sweep := (sweepOf s m c1 c2).sweep
    lfoPhase := (lfoStep s m).phase
    currentFreq := (sweepOf s m c1 c2).current
    oscPhase :=
      bankAdvance s.oscCount.toNat (sweepOf s m c1 c2).current s.sampleRate s.detuneOffset s.oscPhase
    nanDraws := s.nanDraws + 4 }

/-- An accepted PROC, for a waveform `wave` of the audio oscillators: registers, trace record, response (R192 to R195). -/
def produceSample (wave : F32 → F32) (m c1 c2 : F32) (s : State) : State :=
  accept (outputOf wave s) (emitTrace (traceOf wave m c1 c2 s) (advanceVoice m c1 c2 s))

/-- PROC (R193), with the OPEN waveform `OSC_WAVE`. The control points are not validated (R173). -/
def execProc (m c1 c2 : F32) (s : State) : Host.Outcome State Fault Refusal :=
  .next (whenInitialised s fun s => whenValid (frequencyOk m) 1 s fun s => produceSample oscWave m c1 c2 s)

end Sys2Proof.Machine
end

