-- ==== Sys2Proof/Machine/Status.lean ====
section
/-! DEFINITION. The status commands RDSR and ISAT (spec rules R207 to R216). Neither writes a register. -/

namespace Sys2Proof.Machine

/-- RDSR (R208): `RDSR 0x00` is always accepted; a reserved index is ILLEGAL_COMMAND (R72, R223), which the decoder has
answered already for a command that came through the port (log entry 10). -/
def execRdsr (idx : BitVec 8) (s : State) : Host.Outcome State Fault Refusal :=
  .next (match statusRegOf idx with
    | none => raise .illegalCommand 0 s
    | some .status => accept (srRead .status s) s
    | some r => whenInitialised s fun s => accept (srRead r s) s)

/-- ISAT (R212): 1 exactly in AtTarget. -/
def execIsat (s : State) : Host.Outcome State Fault Refusal :=
  .next (whenInitialised s fun s => accept (if s.sweep = .atTarget then 1 else 0) s)

end Sys2Proof.Machine
end

