-- ==== Sys2Proof/Machine/Dispatch.lean ====
section
/-! DEFINITION. One arm per command: the meaning each constructor of `Instr` is given. -/

namespace Sys2Proof.Machine

def exec (i : Instr) (s : State) : Host.Outcome State Fault Refusal :=
  match i with
  | .init n fstart fs flfo d => Sys2Proof.Machine.execInit n fstart fs flfo d s
  | .sett f => Sys2Proof.Machine.execSett f s
  | .sets f => Sys2Proof.Machine.execSets f s
  | .detune d => Sys2Proof.Machine.execDetune d s
  | .proc m c1 c2 => Sys2Proof.Machine.execProc m c1 c2 s
  | .rdsr idx => Sys2Proof.Machine.execRdsr idx s
  | .isat => Sys2Proof.Machine.execIsat s

end Sys2Proof.Machine
end

