-- ==== Sys2Proof/WellFormed.lean ====
section
/-! DEFINITION. Which commands are well formed: an RDSR names a defined status-register index (spec rules R56, R72). Every
pattern of every operand word is an operand (R73, R76), so the other commands carry no condition. -/

namespace Sys2Proof

/-- The defined status-register indices: `0x00` to `0x06`, `0x08`, `0x10` to `0x1F` and `0x20` to `0x2F` (R72). -/
def definedIndex (idx : BitVec 8) : Bool :=
  idx.toNat ≤ 0x06 || idx.toNat == 0x08 || (0x10 ≤ idx.toNat && idx.toNat ≤ 0x2F)

/-- The check of one command. -/
def wellFormed : Instr → Bool
  | .init _ _ _ _ _ => true
  | .sett _ => true
  | .sets _ => true
  | .detune _ => true
  | .proc _ _ _ => true
  | .rdsr idx => definedIndex idx
  | .isat => true

/-- A command the encoding admits. -/
abbrev WellFormed (i : Instr) : Prop := wellFormed i = true

end Sys2Proof
end

