-- ==== Sys2Proof/Decode.lean ====
section
/-! DEFINITION. The command encoding (spec rules R57, R69 to R78, R84 to R87): header fields, the opcode table as rows of
mask and pattern, the decoder, the encoder, and the little-endian byte form of a stream of words. The decoder is total:
it yields a command, or a named reason why the header is illegal, or says that operand words are still missing. -/

namespace Sys2Proof

/-! ### Header fields (R71) -/

/-- Header bits 31:16, reserved, must be zero. -/
def headerRsv (h : Word) : BitVec 16 := h.extractLsb' 16 16

/-- Header bits 15:8, the status-register index. -/
def headerIdx (h : Word) : BitVec 8 := h.extractLsb' 8 8

/-- Header bits 7:0, the opcode. -/
def headerOpc (h : Word) : BitVec 8 := h.extractLsb' 0 8

/-! ### The opcode table (R74) -/

/-- The seven mnemonics. -/
inductive Mnemonic where
  | INIT | SETT | SETS | DETUNE | PROC | RDSR | ISAT
  deriving DecidableEq, Repr

/-- One row of the opcode map: a header `h` selects the row when `h &&& mask = pattern`; `operands` is the number of
operand words of the row's format (R70). -/
structure OpcodeRow where
  mnemonic : Mnemonic
  mask : Word
  pattern : Word
  operands : Nat
  deriving DecidableEq, Repr

/-- The opcode map of R74, in the order of the table, with the operand counts of R70. -/
def opcodeTable : List OpcodeRow :=
  [ ⟨.INIT,   0xFFFFFFFF, 0x00000001, 5⟩,
    ⟨.SETT,   0xFFFFFFFF, 0x00000002, 1⟩,
    ⟨.SETS,   0xFFFFFFFF, 0x00000003, 1⟩,
    ⟨.DETUNE, 0xFFFFFFFF, 0x00000004, 1⟩,
    ⟨.PROC,   0xFFFFFFFF, 0x00000008, 3⟩,
    ⟨.RDSR,   0xFFFF00FF, 0x00000010, 0⟩,
    ⟨.ISAT,   0xFFFFFFFF, 0x00000011, 0⟩ ]

/-- A header selects a row: mask and pattern agree and, for RDSR, the index is a defined one (R72, R74). -/
def rowSelected (h : Word) (r : OpcodeRow) : Bool :=
  (h &&& r.mask) == r.pattern && (r.mnemonic != .RDSR || definedIndex (headerIdx h))

/-- Match the header against the rows in order; the first match decides (R70). -/
def selectRow (h : Word) : Option OpcodeRow := opcodeTable.find? (rowSelected h)

/-- The opcodes of the table, for naming why a header is illegal (R85). -/
def knownOpcode (opc : BitVec 8) : Bool :=
  opcodeTable.any (fun r => r.pattern.extractLsb' 0 8 == opc)

/-- Why a header is illegal: the four cases of R85. -/
inductive IllegalHeader where
  /-- `RSV ≠ 0`. -/
  | reservedBits
  /-- `OPC` is none of the seven opcodes (the all-zero word among them). -/
  | unknownOpcode
  /-- `OPC ≠ 0x10` and `IDX ≠ 0`. -/
  | indexWithoutRdsr
  /-- `OPC = 0x10` and `IDX` is not a defined index. -/
  | reservedIndex
  deriving DecidableEq, Repr

/-- The name of the case, for a header that selects no row. -/
def illegalReason (h : Word) : IllegalHeader :=
  if headerRsv h ≠ 0 then .reservedBits
  else if !knownOpcode (headerOpc h) then .unknownOpcode
  else if headerOpc h = 0x10 then .reservedIndex
  else .indexWithoutRdsr

/-- The number of words of the command a header starts, a function of the header alone (R70); an illegal header is a
command of one word (R86). -/
def headerLength (h : Word) : Nat :=
  match selectRow h with
  | some r => 1 + r.operands
  | none => 1

/-! ### The decoder (R69, R70, R78) -/

/-- What the front of a stream of words is. -/
inductive Decoded where
  /-- A whole command, and the words after it. -/
  | command (i : Instr) (rest : List Word)
  /-- An illegal header, and the words after that one word (R86). -/
  | illegal (why : IllegalHeader) (rest : List Word)
  /-- The words of a command that have not all arrived (R58); also no word at all. -/
  | incomplete
  deriving DecidableEq, Repr

/-- Assemble the operand words of a selected command, first parameter first (R73, R78). -/
def takeOperands (m : Mnemonic) (h : Word) (ws : List Word) : Decoded :=
  match m, ws with
  | .INIT, n :: fstart :: fs :: flfo :: d :: rest => .command (.init n fstart fs flfo d) rest
  | .SETT, f :: rest => .command (.sett f) rest
  | .SETS, f :: rest => .command (.sets f) rest
  | .DETUNE, d :: rest => .command (.detune d) rest
  | .PROC, m :: c1 :: c2 :: rest => .command (.proc m c1 c2) rest
  | .RDSR, rest => .command (.rdsr (headerIdx h)) rest
  | .ISAT, rest => .command .isat rest
  | _, _ => .incomplete

/-- Decode the front of a stream of words. -/
def decode (ws : List Word) : Decoded :=
  match ws with
  | [] => .incomplete
  | h :: rest =>
    match selectRow h with
    | some r => takeOperands r.mnemonic h rest
    | none => .illegal (illegalReason h) rest

/-! ### The encoder (R91) -/

/-- The header word of a command: `IDX << 8 | OPC` (R91). -/
def encodeHeader (idx opc : BitVec 8) : Word := idx.setWidth 32 <<< 8 ||| opc.setWidth 32

/-- The words of a command, header first, operand words in stream order (R78, R91). -/
def encode (i : Instr) : List Word :=
  match i with
  | .init n fstart fs flfo d => [encodeHeader 0x00#8 0x01#8, n, fstart, fs, flfo, d]
  | .sett f => [encodeHeader 0x00#8 0x02#8, f]
  | .sets f => [encodeHeader 0x00#8 0x03#8, f]
  | .detune d => [encodeHeader 0x00#8 0x04#8, d]
  | .proc m c1 c2 => [encodeHeader 0x00#8 0x08#8, m, c1, c2]
  | .rdsr idx => [encodeHeader idx 0x10#8]
  | .isat => [encodeHeader 0x00#8 0x11#8]

/-- The number of words of a command (R70). -/
def commandLength (i : Instr) : Nat :=
  match i with
  | .init _ _ _ _ _ => 6
  | .sett _ => 2
  | .sets _ => 2
  | .detune _ => 2
  | .proc _ _ _ => 4
  | .rdsr _ => 1
  | .isat => 1

/-! ### The byte-wide transport (R57) -/

/-- The four bytes of a word, least significant first (R57). -/
def bytesOfWord (w : Word) : List Byte :=
  [w.extractLsb' 0 8, w.extractLsb' 8 8, w.extractLsb' 16 8, w.extractLsb' 24 8]

/-- A word from its four bytes, least significant first (R57). -/
def wordOfBytes (b0 b1 b2 b3 : Byte) : Word :=
  b3.setWidth 32 <<< 24 ||| b2.setWidth 32 <<< 16 ||| b1.setWidth 32 <<< 8 ||| b0.setWidth 32

/-- A stream of words as bytes, in stream order (R57). -/
def serialise (ws : List Word) : List Byte := ws.flatMap bytesOfWord

/-- The whole words of a stream of bytes; one to three bytes left over are a word that has not all arrived
(log entry 14). -/
def deserialise : List Byte → List Word
  | b0 :: b1 :: b2 :: b3 :: rest => wordOfBytes b0 b1 b2 b3 :: deserialise rest
  | _ => []

/-- Decode the front of a stream of bytes. -/
def decodeBytes (bs : List Byte) : Decoded := decode (deserialise bs)

/-! ### The host's reading of an opcode-table word -/

/-- The longest command, in words (INIT, R70). -/
def longestCommand : Nat := 6

/-- The words of an instruction given as one number, bit 0 the least significant bit of the header word; every bit at or
above `nbits` is zero. -/
def tableWords (nbits w : Nat) : List Word :=
  (List.range longestCommand).map (fun k => BitVec.ofNat 32 ((w % 2 ^ nbits) / 2 ^ (32 * k)))

/-- The command the decoder reads from an opcode-table word, laid out in bytes as R57 says. -/
def decodeTableWord (nbits w : Nat) : Option Instr :=
  match decodeBytes (serialise (tableWords nbits w)) with
  | .command i _ => some i
  | .illegal _ _ => none
  | .incomplete => none

end Sys2Proof
end

