-- ==== Sys2Proof/Machine/Port.lean ====
section
/-! DEFINITION. Taking the next command from the command port (spec rules R58, R62, R69, R86, R243): what the inputs that
have been presented hold next, and the placing of a command's words at the port. -/

namespace Sys2Proof.Machine

/-- The words that arrived before the next reset. -/
def wordsBeforeReset : List InputEvent → List Word
  | .word w :: rest => w :: wordsBeforeReset rest
  | .reset :: _ => []
  | [] => []

/-- What follows the next reset; `none` where no reset was asserted. -/
def afterReset : List InputEvent → Option (List InputEvent)
  | .word _ :: rest => afterReset rest
  | .reset :: rest => some rest
  | [] => none

/-- What the machine does next. -/
inductive Fetched where
  /-- Execute a command whose words have all arrived (R69). -/
  | command (i : Instr) (remaining : List InputEvent)
  /-- Reject an illegal header, one word consumed (R86). -/
  | illegal (remaining : List InputEvent)
  /-- Be reset; the words of a command cut short are discarded (R243). -/
  | reset (remaining : List InputEvent)
  /-- Wait: no command is complete (R58, R237). -/
  | waiting
  deriving DecidableEq, Repr

/-- Look at the front of the inputs. A command is taken when all its words have arrived before the next reset. -/
def fetch (inputs : List InputEvent) : Fetched :=
  match decode (wordsBeforeReset inputs) with
  | .command i _ => .command i (inputs.drop (commandLength i))
  | .illegal _ _ => .illegal (inputs.drop 1)
  | .incomplete =>
    match afterReset inputs with
    | some remaining => .reset remaining
    | none => .waiting

/-- Words as they are presented at the command port. -/
def presentWords (ws : List Word) : List InputEvent := ws.map .word

/-- The words of the one command at the front of `ws`, as long as its header says (R70). -/
def firstCommandWords (ws : List Word) : List Word :=
  match ws with
  | [] => []
  | h :: rest => h :: rest.take (headerLength h - 1)

end Sys2Proof.Machine
end

