-- ==== Sys2Proof/Machine/Step.lean ====
section
/-! DEFINITION. One step of the machine: one command taken from the command port and executed whole (spec rules R62, R69),
or the rejection of an illegal header (R86), or a reset (R241), or waiting (R58). -/

namespace Sys2Proof.Machine

/-- One step. A command's words are consumed before it executes, whatever becomes of it (R217); a machine that waits keeps
its state (R58, R237; log entry 7). -/
def step (s : State) : Host.Outcome State Fault Refusal :=
  match fetch s.inputs with
  | .command i remaining => exec i { s with inputs := remaining }
  | .illegal remaining => .next (raise .illegalCommand 0 { s with inputs := remaining })
  | .reset remaining => .next (applyReset remaining s)
  | .waiting => .next s

/-- `s` with the instruction of an opcode-table word presented at the command port, ahead of anything there: exactly the
words its header asks for, the operand bits above `nbits` zero (log entry 4). -/
def State.withFetchWord (s : State) (nbits w : Nat) : State :=
  { s with inputs := presentWords (firstCommandWords (tableWords nbits w)) ++ s.inputs }

end Sys2Proof.Machine
end

