-- ==== Sys2Proof/Machine/Assembler.lean ====
section
/-! DEFINITION. The assembler syntax of spec rules R88 to R93: the text of a program, its translation to commands and
words, and the disassembler. The machine does not use this file: its input is words. Text is a list of characters. What
R88 to R93 leave open is log entry 15. -/

namespace Sys2Proof.Machine

/-! ### Characters and numbers -/

/-- The text without spaces at its two ends. -/
def trimSpaces (cs : List Char) : List Char :=
  ((cs.dropWhile (· == ' ')).reverse.dropWhile (· == ' ')).reverse

/-- The pieces of a text between the separators. -/
def splitAtChar (sep : Char) : List Char → List (List Char)
  | [] => [[]]
  | c :: cs =>
    if c == sep then [] :: splitAtChar sep cs
    else
      match splitAtChar sep cs with
      | [] => [[c]]
      | piece :: pieces => (c :: piece) :: pieces

/-- The value of a decimal or hexadecimal digit below `base`. -/
def digitOf (base : Nat) (c : Char) : Option Nat :=
  let v :=
    if '0' ≤ c ∧ c ≤ '9' then c.toNat - '0'.toNat
    else if 'a' ≤ c ∧ c ≤ 'f' then c.toNat - 'a'.toNat + 10
    else if 'A' ≤ c ∧ c ≤ 'F' then c.toNat - 'A'.toNat + 10
    else base
  if v < base then some v else none

/-- The value of a text of digits; `none` where it is empty or holds another character. -/
def numberOf (base : Nat) (cs : List Char) : Option Nat :=
  match cs.mapM (digitOf base) with
  | some (d :: ds) => some ((d :: ds).foldl (fun v x => base * v + x) 0)
  | _ => none

/-! ### Operand literals (R89) -/

/-- An unsigned integer, decimal or `0x` hexadecimal. -/
def natLiteral : List Char → Option Nat
  | '0' :: 'x' :: digits => numberOf 16 digits
  | digits => numberOf 10 digits

/-- A u32 operand (R89). -/
def u32Literal (cs : List Char) : Option Word :=
  match natLiteral cs with
  | some k => if k < 2 ^ 32 then some (BitVec.ofNat 32 k) else none
  | none => none

/-- The binary32 value nearest to `num / 10 ^ places`, ties to even (R89 form (a)). -/
def decimalF32 (neg : Bool) (num places : Nat) : F32 :=
  packF32 neg (roundMag (num * 2 ^ 149) (10 ^ places))

/-- An unsigned decimal literal, with or without a fraction, under a sign. -/
def decimalLiteral (neg : Bool) (cs : List Char) : Option F32 :=
  match splitAtChar '.' cs with
  | [whole] => (numberOf 10 whole).map (fun v => decimalF32 neg v 0)
  | [whole, fraction] =>
    match numberOf 10 whole, numberOf 10 fraction with
    | some _, some _ => (numberOf 10 (whole ++ fraction)).map (fun v => decimalF32 neg v fraction.length)
    | _, _ => none
  | _ => none

/-- An f32 operand: a decimal literal, `+Inf`, `-Inf`, `NaN`, or `=0x` and eight hexadecimal digits (R89). -/
def f32Literal (cs : List Char) : Option F32 :=
  if cs = "+Inf".toList then some 0x7F800000
  else if cs = "-Inf".toList then some 0xFF800000
  else if cs = "NaN".toList then some 0x7FC00000
  else
    match cs with
    | '=' :: '0' :: 'x' :: digits =>
      if digits.length = 8 then (numberOf 16 digits).map (BitVec.ofNat 32) else none
    | '-' :: rest => decimalLiteral true rest
    | rest => decimalLiteral false rest

/-! ### Status-register names (R90) -/

/-- The names without a slot, with their indices (R56). -/
def plainRegisterNames : List (String × Nat) :=
  [ ("STATUS", 0x00), ("START_FREQ", 0x01), ("TARGET_FREQ", 0x02), ("CURRENT_FREQ", 0x03), ("OSC_COUNT", 0x04),
    ("LFO_BASE_FREQ", 0x05), ("SAMPLE_RATE", 0x06), ("LFO_PHASE", 0x08) ]

/-- The indexed names, with the index of slot 0 (R56). -/
def indexedRegisterNames : List (String × Nat) := [("DETUNE_OFFSET", 0x10), ("OSC_PHASE", 0x20)]

/-- The index an RDSR operand names: a name, an indexed name with its slot in brackets, or a number (R90). R90 shows slots
such as `[2]` and `[15]` and does not say how a slot is written: the model reads decimal digits alone (the range, 0 to 15, is that of R56), with
no `0x` form and no blank before or inside the brackets. DESIGN CHOICE, log entry 15. -/
def indexLiteral (cs : List Char) : Option (BitVec 8) :=
  match plainRegisterNames.find? (fun e => e.1.toList == cs) with
  | some e => some (BitVec.ofNat 8 e.2)
  | none =>
    match splitAtChar '[' cs with
    | [name, slot] =>
      match indexedRegisterNames.find? (fun e => e.1.toList == name), splitAtChar ']' slot with
      | some e, [digits, []] =>
        match numberOf 10 digits with
        | some i => if i < 16 then some (BitVec.ofNat 8 (e.2 + i)) else none
        | none => none
      | _, _ => none
    | _ =>
      match natLiteral cs with
      | some k => if k < 2 ^ 8 then some (BitVec.ofNat 8 k) else none
      | none => none

/-! ### Commands and lines (R88, R91, R93) -/

/-- The command of a mnemonic and its operand texts. The pseudo-instructions are the four-operand INIT, which takes
`DEFAULT_DETUNE_HZ`, and RDST, which is `RDSR 0x00` (R93). -/
def assembleCommand (mnemonic : List Char) (operands : List (List Char)) : Option Instr :=
  if mnemonic = "INIT".toList then
    match operands with
    | [n, fstart, fs, flfo, d] => do
      return .init (← u32Literal n) (← f32Literal fstart) (← f32Literal fs) (← f32Literal flfo) (← f32Literal d)
    | [n, fstart, fs, flfo] => do
      return .init (← u32Literal n) (← f32Literal fstart) (← f32Literal fs) (← f32Literal flfo) Config.defaultDetuneHz
    | _ => none
  else if mnemonic = "SETT".toList then
    match operands with
    | [f] => (f32Literal f).map .sett
    | _ => none
  else if mnemonic = "SETS".toList then
    match operands with
    | [f] => (f32Literal f).map .sets
    | _ => none
  else if mnemonic = "DETUNE".toList then
    match operands with
    | [d] => (f32Literal d).map .detune
    | _ => none
  else if mnemonic = "PROC".toList then
    match operands with
    | [m, c1, c2] => do return .proc (← f32Literal m) (← f32Literal c1) (← f32Literal c2)
    | _ => none
  else if mnemonic = "RDSR".toList then
    match operands with
    | [idx] => (indexLiteral idx).map .rdsr
    | _ => none
  else if mnemonic = "RDST".toList ∧ operands = [] then some (.rdsr 0)
  else if mnemonic = "ISAT".toList ∧ operands = [] then some .isat
  else none

/-- One line: a command, or no command (blank, or a comment alone); `none` where the line has neither form (R88). -/
def assembleLine (line : List Char) : Option (Option Instr) :=
  let text := trimSpaces (line.takeWhile (· != ';'))
  if text = [] then some none
  else
    let operands := trimSpaces (text.dropWhile (· != ' '))
    let pieces := if operands = [] then [] else (splitAtChar ',' operands).map trimSpaces
    (assembleCommand (text.takeWhile (· != ' ')) pieces).map some

/-- The commands of a program, one command per line (R88). -/
def assembleProgram (text : List Char) : Option (List Instr) :=
  ((splitAtChar '\n' text).mapM assembleLine).map (List.filterMap id)

/-- The command stream of a program (R91). -/
def assembleWords (text : List Char) : Option (List Word) := (assembleProgram text).map (List.flatMap encode)

/-! ### The disassembler (R92) -/

/-- Exactly `width` hexadecimal digits of a number. -/
def hexDigits (width k : Nat) : List Char :=
  (List.range width).map (fun i => Nat.digitChar (k / 16 ^ (width - 1 - i) % 16)) |>.map Char.toUpper

/-- The form `0x…` of a word. -/
def showWord (w : Word) : List Char := "0x".toList ++ hexDigits 8 w.toNat

/-- An f32 in form (c) of R89. -/
def showF32 (v : F32) : List Char := '=' :: showWord v

/-- The exact decimal value of an f32, as the comment of R92 gives it. -/
def showDecimal (v : F32) : List Char :=
  if isNaN v then "NaN".toList
  else
    let sign := if signBit v then ['-'] else []
    if isInf v then (if signBit v then "-Inf".toList else "+Inf".toList)
    else
      let mag := magnitude (magPattern v)
      let places := Nat.toDigits 10 (mag % 2 ^ 149 * 5 ^ 149)
      let fraction := ((List.replicate (149 - places.length) '0' ++ places).reverse.dropWhile (· == '0')).reverse
      sign ++ Nat.toDigits 10 (mag / 2 ^ 149) ++ (if fraction = [] then [] else '.' :: fraction)

/-- Operands separated by commas. -/
def joinCommas (pieces : List (List Char)) : List Char := List.intercalate ", ".toList pieces

/-- A mnemonic with operands, and the decimal values of the f32 operands as a comment. -/
def showLine (mnemonic : String) (operands : List (List Char)) (values : List F32) : List Char :=
  mnemonic.toList ++ (if operands = [] then [] else ' ' :: joinCommas operands) ++
    (if values = [] then [] else " ; ".toList ++ joinCommas (values.map showDecimal))

/-- A command as the disassembler prints it (R92). -/
def showCommand (i : Instr) : List Char :=
  match i with
  | .init n fstart fs flfo d =>
    showLine "INIT" (Nat.toDigits 10 n.toNat :: [fstart, fs, flfo, d].map showF32) [fstart, fs, flfo, d]
  | .sett f => showLine "SETT" [showF32 f] [f]
  | .sets f => showLine "SETS" [showF32 f] [f]
  | .detune d => showLine "DETUNE" [showF32 d] [d]
  | .proc m c1 c2 => showLine "PROC" ([m, c1, c2].map showF32) [m, c1, c2]
  | .rdsr idx => showLine "RDSR" ["0x".toList ++ hexDigits 2 idx.toNat] []
  | .isat => showLine "ISAT" [] []

/-- The lines of at most `fuel` commands of a stream; an illegal header prints as `.word 0x…` (R92). A command cut short is
no command (R58) and is not printed. -/
def disassembleUpTo : Nat → List Word → List (List Char)
  | 0, _ => []
  | _ + 1, [] => []
  | fuel + 1, h :: ws =>
    match decode (h :: ws) with
    | .command i rest => showCommand i :: disassembleUpTo fuel rest
    | .illegal _ rest => (".word ".toList ++ showWord h) :: disassembleUpTo fuel rest
    | .incomplete => []

/-- The lines of a stream (R92): no stream holds more commands than words. -/
def disassemble (ws : List Word) : List (List Char) := disassembleUpTo ws.length ws

end Sys2Proof.Machine
end

