-- ==== Sys2Proof/Safety.lean ====
section
/-! DEFINITION. What claims about the voice are made of: the invariants of spec rules R40 to R42 and R131, the two states
nothing can tell apart (R43, U3), and streams of commands (R63, R64). -/

namespace Sys2Proof.Machine

/-! ### Invariants -/

/-- The legal values of the registers of an initialised voice (R40). -/
structure RegistersLegal (s : State) : Prop where
  startFreq : frequencyOk s.startFreq = true
  targetFreq : frequencyOk s.targetFreq = true
  currentFreq : frequencyOk s.currentFreq = true
  lfoBaseFreq : frequencyOk s.lfoBaseFreq = true
  sampleRate : sampleRateOk s.sampleRate = true
  oscCount : 1 ≤ s.oscCount.toNat ∧ s.oscCount.toNat ≤ Config.maxOscillators

/-- A phase: finite, `+0.0 ≤ p < 1.0`, and never `-0.0` (R131). -/
def phaseOk (p : F32) : Bool := finite p && inUnit p && !signBit p

/-- Every phase register holds a phase (R37, R38, R131). -/
structure PhasesLegal (s : State) : Prop where
  lfoPhase : phaseOk s.lfoPhase = true
  oscPhase : ∀ i : Fin 16, phaseOk s.oscPhase[i] = true

/-- `CURRENT_FREQ` lies in the window of `START_FREQ` and `TARGET_FREQ` (R41). -/
def InWindow (s : State) : Prop := rangeContains (rangeNew s.startFreq s.targetFreq) s.currentFreq = true

/-- An inactive slot holds `+0.0` as its phase and as its offset (R154, R191, R210). -/
def InactiveSlotsZero (s : State) : Prop :=
  ∀ i : Fin 16, s.oscCount.toNat ≤ i.val → s.oscPhase[i] = f0 ∧ s.detuneOffset[i] = f0

/-- No offset is a NaN; it may be an infinity (R104, R145). -/
def OffsetsNotNaN (s : State) : Prop := ∀ i : Fin 16, isNaN s.detuneOffset[i] = false

/-! The invariants of the machine bind the registers only once an INIT has been accepted (R40, R43). -/

/-- The registers of an initialised voice are legal, and its frequency lies in the window (R40, R41). -/
def RegistersInvariant (s : State) : Prop := s.initialised = true → RegistersLegal s ∧ InWindow s

/-- On an initialised voice in AtTarget, `CURRENT_FREQ` is `TARGET_FREQ`, bit for bit (R42). Before INIT all three registers
are unspecified (R43). -/
def ExactAtTarget (s : State) : Prop := s.initialised = true → s.sweep = .atTarget → s.currentFreq = s.targetFreq

/-- Every phase of an initialised voice is a phase (R131). -/
def PhasesInvariant (s : State) : Prop := s.initialised = true → PhasesLegal s

/-- The slots of an initialised voice: the inactive ones hold `+0.0`, and no offset is a NaN (R104, R154, R191). -/
def SlotsInvariant (s : State) : Prop := s.initialised = true → InactiveSlotsZero s ∧ OffsetsNotNaN s

/-! ### Ports -/

/-- The status code of a response, bits 7:0 of `r0` (R80). -/
def responseStatus (r : Response) : BitVec 8 := r.r0.extractLsb' 0 8

/-- The INFO byte of a response, bits 15:8 of `r0` (R80). -/
def responseInfo (r : Response) : BitVec 8 := r.r0.extractLsb' 8 8

/-- Two states the outside cannot tell apart: they are equal, or both are uninitialised and differ at most in the registers
the spec leaves unspecified after reset (R43, U3). -/
def Indistinguishable (s t : State) : Prop :=
  s = t ∨
    (s.initialised = false ∧ t.initialised = false ∧ s.inputs = t.inputs ∧ s.responses = t.responses ∧
      s.trace = t.trace ∧ s.nanDraws = t.nanDraws)

/-! ### Streams of commands -/

/-- The inputs that present a list of commands, one after another (R63, R69). -/
def presentCommands (cs : List Instr) : List InputEvent := presentWords (cs.flatMap encode)

/-- Execute a list of commands one after another, stopping at the first that does not answer a next state. -/
def execAll : List Instr → State → Host.Outcome State Fault Refusal
  | [], s => .next s
  | c :: cs, s =>
    match exec c s with
    | .next t => execAll cs t
    | .fault r => .fault r
    | .refused r => .refused r

/-- `c` is a merge of the command streams `a` and `b`, each in its own order (R63). -/
inductive Merge : List Instr → List Instr → List Instr → Prop where
  | nil : Merge [] [] []
  | left {a b c : List Instr} (i : Instr) (h : Merge a b c) : Merge (i :: a) b (i :: c)
  | right {a b c : List Instr} (i : Instr) (h : Merge a b c) : Merge a (i :: b) (i :: c)

end Sys2Proof.Machine
end

