-- ==== Sys2Proof/Certificates/Slice0/Obligations.lean ====
section
/-! DEFINITION. The statements for the provers, from the numbered rules of spec/. A command's result is stated as an equation
of states, so it is its frame too: what the record update does not name is unchanged. -/

open Sys2Proof Sys2Proof.Machine

/-! ### Encoding -/

/-- R69 to R74, R78: the words of every well-formed command decode to it, and the decoder stops at their end. -/
def Obligations.DecodeOfEncodeIsTheCommand : Prop :=
  ∀ (i : Instr) (rest : List Word), WellFormed i → decode (encode i ++ rest) = .command i rest

/-- R70 to R74, R78: a command is decoded only from its own words, and only a well-formed one. -/
def Obligations.DecodedCommandHasTheseWords : Prop :=
  ∀ (ws rest : List Word) (i : Instr), decode ws = .command i rest → WellFormed i ∧ ws = encode i ++ rest

/-- R57: a command carried over a byte-wide transport, least significant byte first, arrives as it was. -/
def Obligations.CommandSurvivesByteTransport : Prop :=
  ∀ (i : Instr), WellFormed i → decodeBytes (serialise (encode i)) = .command i []

/-- R85, R72: the illegal headers are exactly these, the all-zero word among them; each is one word long. The seven opcodes and
the defined indices are written out. -/
def Obligations.IllegalHeadersAreExactlyThese : Prop :=
  (∀ (h : Word) (rest : List Word),
    (∃ why, decode (h :: rest) = .illegal why rest) ↔
      (headerRsv h ≠ 0 ∨
        headerOpc h ∉ ([0x01, 0x02, 0x03, 0x04, 0x08, 0x10, 0x11] : List (BitVec 8)) ∨
        (headerOpc h ≠ 0x10 ∧ headerIdx h ≠ 0) ∨
        (headerOpc h = 0x10 ∧
          ¬ ((headerIdx h).toNat ≤ 0x06 ∨ (headerIdx h).toNat = 0x08 ∨
            (0x10 ≤ (headerIdx h).toNat ∧ (headerIdx h).toNat ≤ 0x2F))))) ∧
  (∀ rest : List Word, ∃ why, decode (0x00000000 :: rest) = .illegal why rest)

/-- R74: no header matches two rows of the opcode map. -/
def Obligations.OpcodeRowsDoNotOverlap : Prop :=
  opcodeTable.Pairwise (fun r q => ∀ h : Word, ¬ (h &&& r.mask = r.pattern ∧ h &&& q.mask = q.pattern))

/-- R58, R70: while the last operand word is missing, the words that arrived are no command. -/
def Obligations.CommandIsIncompleteUntilItsLastWord : Prop :=
  ∀ (i : Instr) (k : Nat), WellFormed i → k < (encode i).length → decode ((encode i).take k) = .incomplete

/-- R90, R91, R83: a few words written out from the encoding decode to the commands they stand for. -/
def Obligations.WrittenOutWordsDecode : Prop :=
  decode [0x00000001, 0x00000004, 0x447A0000, 0x45FA0000, 0x447A0000, 0x40200000] =
    .command (.init 4 0x447A0000 0x45FA0000 0x447A0000 0x40200000) [] ∧
  decode [0x00000002, 0xBF800000] = .command (.sett 0xBF800000) [] ∧
  decode [0x00000003, 0x42480000] = .command (.sets 0x42480000) [] ∧
  decode [0x00000004, 0x3DCCCCCD] = .command (.detune 0x3DCCCCCD) [] ∧
  decode [0x00000008, 0x3F800000, 0x3DA3D70A, 0x3F000000] = .command (.proc 0x3F800000 0x3DA3D70A 0x3F000000) [] ∧
  decode [0x00002F10] = .command (.rdsr 0x2F) [] ∧
  decode [0x00000011] = .command .isat []

/-- R89, R91, R93: lines of the assembler and their words, a pseudo-instruction of each kind among them. -/
def Obligations.AssemblerLinesGiveTheseWords : Prop :=
  assembleWords "INIT 1, 400, 48000, 1 ; default detune".toList =
    some [0x00000001, 0x00000001, 0x43C80000, 0x473B8000, 0x3F800000, 0x40200000] ∧
  assembleWords "PROC 1, 0.08, 0.5".toList = some [0x00000008, 0x3F800000, 0x3DA3D70A, 0x3F000000] ∧
  assembleWords "RDST".toList = some [0x00000010] ∧
  assembleWords "RDSR DETUNE_OFFSET[2]".toList = some [0x00001210]

/-! ### Steps -/

/-- R62, R69: when the words that have arrived decode to a command, a step is that command's meaning, its words consumed.
The list of inputs is the model's form of the command port (log entry 5). -/
def Obligations.StepRunsTheDecodedCommand : Prop :=
  ∀ (s : State) (i : Instr) (rest : List Word),
    decode (wordsBeforeReset s.inputs) = .command i rest →
      step s = exec i { s with inputs := s.inputs.drop (commandLength i) }

/-- R86: an illegal header is consumed alone and rejected with `0x00000003 0x00000000`, whatever `INITIALISED` is; no register
is written and no trace record emitted. -/
def Obligations.IllegalHeaderIsOneWordRejected : Prop :=
  ∀ (s : State) (h : Word) (following : List InputEvent) (why : IllegalHeader),
    s.inputs = .word h :: following → decode [h] = .illegal why [] →
      step s = .next { s with inputs := following, responses := s.responses ++ [⟨0x00000003, 0x00000000⟩] }

/-- R58, R237: without a whole command, and without a reset, the machine keeps its state; that waiting is a step is the
model's reading (log entry 7). -/
def Obligations.CutShortCommandWaits : Prop :=
  ∀ (s : State) (ws : List Word), s.inputs = presentWords ws → decode ws = .incomplete → step s = .next s

/-- R241, R243: reset discards the words of a command that had not all arrived, clears `INITIALISED` and empties the output
ports; that a reset is an event between commands is the model's reading (log entry 5). -/
def Obligations.ResetDiscardsPartialCommand : Prop :=
  ∀ (s : State) (ws : List Word) (following : List InputEvent),
    s.inputs = presentWords ws ++ .reset :: following → decode ws = .incomplete →
      ∃ t, step s = .next t ∧ t.initialised = false ∧ t.inputs = following ∧ t.responses = [] ∧ t.trace = []

/-- R217, R222, R262: every step answers a next state, from every state. -/
def Obligations.EveryStepAnswersNext : Prop := ∀ s : State, ∃ t, step s = .next t

/-- R62 to R64: whatever merge of the two agents' streams arrives, the machine executes its commands whole and in order, each
on the state the ones before it left. The list of inputs is the model's form of the port (log entries 5 and 8). -/
def Obligations.MergedStreamsRunInOrder : Prop :=
  ∀ (a b c : List Instr) (s : State) (following : List InputEvent),
    Merge a b c → (∀ i ∈ a, WellFormed i) → (∀ i ∈ b, WellFormed i) →
      ∃ t, execAll c { s with inputs := following } = .next t ∧
        core.run c.length { s with inputs := presentCommands c ++ following } = .next t

/-! ### What each command does -/

/-- R44, R168: an accepted INIT, every register. -/
def Obligations.InitConfiguresTheVoice : Prop :=
  ∀ (n : Word) (fstart fs flfo d : F32) (s : State),
    1 ≤ n.toNat → n.toNat ≤ 16 → finite fstart = true → fge fstart 0x00000000 = true →
    finite fs = true → fgt fs 0x00000000 = true → finite flfo = true → fge flfo 0x00000000 = true → finite d = true →
      exec (.init n fstart fs flfo d) s = .next { s with
        initialised := true
        sweep := .pending
        startFreq := fstart
        targetFreq := fstart
        currentFreq := fstart
        oscCount := BitVec.ofNat 5 n.toNat
        lfoBaseFreq := flfo
        sampleRate := fs
        lfoPhase := 0x00000000
        oscPhase := Vector.ofFn (fun _ => 0x00000000)
        detuneOffset := Vector.ofFn (fun i =>
          if i.val < n.toNat then fmul (i2f (detuneMultiple i.val n.toNat)) d else 0x00000000)
        responses := s.responses ++ [⟨0x00000000, 0x00000000⟩] }

/-- R149, R168, R219: INIT reports the first offending operand, and writes nothing. -/
def Obligations.InitReportsTheFirstBadOperand : Prop :=
  ∀ (n : Word) (fstart fs flfo d : F32) (s : State),
    let rejectedWith (r0 : Word) : Prop :=
      exec (.init n fstart fs flfo d) s = .next { s with responses := s.responses ++ [⟨r0, 0x00000000⟩] }
    let bad (f : F32) : Prop := ¬ (finite f = true ∧ fge f 0x00000000 = true)
    let badRate : Prop := ¬ (finite fs = true ∧ fgt fs 0x00000000 = true)
    ((n.toNat = 0 ∨ 16 < n.toNat) → rejectedWith 0x00000101) ∧
    (1 ≤ n.toNat ∧ n.toNat ≤ 16 → bad fstart → rejectedWith 0x00000201) ∧
    (1 ≤ n.toNat ∧ n.toNat ≤ 16 → ¬ bad fstart → badRate → rejectedWith 0x00000301) ∧
    (1 ≤ n.toNat ∧ n.toNat ≤ 16 → ¬ bad fstart → ¬ badRate → bad flfo → rejectedWith 0x00000401) ∧
    (1 ≤ n.toNat ∧ n.toNat ≤ 16 → ¬ bad fstart → ¬ badRate → ¬ bad flfo → finite d = false →
      rejectedWith 0x00000501)

/-- R156: SETT, whole: accepted, rejected for its operand, rejected before INIT. -/
def Obligations.SettRetargetsFromTheCurrentFrequency : Prop :=
  ∀ (f : F32) (s : State),
    let legal : Prop := finite f = true ∧ fge f 0x00000000 = true
    let rejectedWith (r0 : Word) : Prop :=
      exec (.sett f) s = .next { s with responses := s.responses ++ [⟨r0, 0x00000000⟩] }
    (s.initialised = true → legal →
      exec (.sett f) s = .next { s with
        startFreq := s.currentFreq
        targetFreq := f
        sweep := .pending
        responses := s.responses ++ [⟨0x00000000, 0x00000000⟩] }) ∧
    (s.initialised = true → ¬ legal → rejectedWith 0x00000101) ∧
    (s.initialised = false → rejectedWith 0x00000002)

/-- R160: SETS, whole: accepted, rejected for its operand, rejected before INIT. -/
def Obligations.SetsJumpsAndKeepsTheTarget : Prop :=
  ∀ (f : F32) (s : State),
    let legal : Prop := finite f = true ∧ fge f 0x00000000 = true
    let rejectedWith (r0 : Word) : Prop :=
      exec (.sets f) s = .next { s with responses := s.responses ++ [⟨r0, 0x00000000⟩] }
    (s.initialised = true → legal →
      exec (.sets f) s = .next { s with
        startFreq := f
        currentFreq := f
        sweep := .pending
        responses := s.responses ++ [⟨0x00000000, 0x00000000⟩] }) ∧
    (s.initialised = true → ¬ legal → rejectedWith 0x00000101) ∧
    (s.initialised = false → rejectedWith 0x00000002)

/-- R165 with R143: DETUNE, whole: accepted, rejected for its operand, rejected before INIT. -/
def Obligations.DetuneWritesTheActiveOffsets : Prop :=
  ∀ (d : F32) (s : State),
    let rejectedWith (r0 : Word) : Prop :=
      exec (.detune d) s = .next { s with responses := s.responses ++ [⟨r0, 0x00000000⟩] }
    (s.initialised = true → finite d = true →
      exec (.detune d) s = .next { s with
        detuneOffset := Vector.ofFn (fun i =>
          if i.val < s.oscCount.toNat then fmul (i2f (detuneMultiple i.val s.oscCount.toNat)) d else s.detuneOffset[i])
        responses := s.responses ++ [⟨0x00000000, 0x00000000⟩] }) ∧
    (s.initialised = true → finite d = false → rejectedWith 0x00000101) ∧
    (s.initialised = false → rejectedWith 0x00000002)

/-- R220: NOT_INITIALISED is the answer of every command but INIT and `RDSR 0x00` before INIT, whatever its operands are, and
of no command afterwards. -/
def Obligations.NotInitialisedExactlyBeforeInit : Prop :=
  ∀ (i : Instr) (s : State), WellFormed i →
    ∃ t r, exec i s = .next t ∧ t.responses = s.responses ++ [r] ∧
      (responseStatus r = 2 ↔
        s.initialised = false ∧ i ≠ .rdsr 0x00 ∧ ¬ ∃ n fstart fs flfo d, i = .init n fstart fs flfo d)

/-- R223: which well-formed command can be rejected with which code and which INFO. -/
def Obligations.RejectionsOfEachCommand : Prop :=
  ∀ (i : Instr) (s t : State) (r : Response), WellFormed i → exec i s = .next t → t.responses = s.responses ++ [r] →
    responseStatus r ≠ 3 ∧
    (responseStatus r ≠ 1 → responseInfo r = 0) ∧
    (responseStatus r = 1 →
      match i with
      | .init _ _ _ _ _ => responseInfo r ∈ ([1, 2, 3, 4, 5] : List (BitVec 8))
      | .sett _ => responseInfo r = 1
      | .sets _ => responseInfo r = 1
      | .detune _ => responseInfo r = 1
      | .proc _ _ _ => responseInfo r = 1
      | .rdsr _ => False
      | .isat => False)

/-- R209: `RDSR 0x00` is accepted in every condition, and what it reads. -/
def Obligations.StatusIsAlwaysReadable : Prop :=
  ∀ (s : State),
    exec (.rdsr 0x00) s = .next { s with
      responses := s.responses ++ [⟨0x00000000,
        if s.initialised = true then
          (match s.sweep with
            | .pending => 0x00000001
            | .inTransit => 0x00000003
            | .atTarget => 0x00000005)
        else 0x00000000⟩] }

/-- R56, R208: RDSR of every other defined index on an initialised voice. -/
def Obligations.RdsrReadsTheIndexedRegister : Prop :=
  ∀ (s : State), s.initialised = true →
    let reads (idx : BitVec 8) (v : Word) : Prop :=
      exec (.rdsr idx) s = .next { s with responses := s.responses ++ [⟨0x00000000, v⟩] }
    reads 0x01 s.startFreq ∧ reads 0x02 s.targetFreq ∧ reads 0x03 s.currentFreq ∧
    reads 0x04 (BitVec.ofNat 32 s.oscCount.toNat) ∧ reads 0x05 s.lfoBaseFreq ∧ reads 0x06 s.sampleRate ∧
    reads 0x08 s.lfoPhase ∧
    ∀ i : Fin 16, reads (BitVec.ofNat 8 (0x10 + i.val)) s.detuneOffset[i] ∧
      reads (BitVec.ofNat 8 (0x20 + i.val)) s.oscPhase[i]

/-- R212: ISAT, whole. -/
def Obligations.IsatReportsAtTarget : Prop :=
  ∀ (s : State),
    (s.initialised = true →
      exec .isat s = .next { s with
        responses := s.responses ++ [⟨0x00000000, if s.sweep = .atTarget then 0x00000001 else 0x00000000⟩] }) ∧
    (s.initialised = false → exec .isat s = .next { s with responses := s.responses ++ [⟨0x00000002, 0x00000000⟩] })

/-- R213: ISAT answers 1 exactly when `RDSR 0x00` answers `0x00000005`. -/
def Obligations.IsatAgreesWithStatus : Prop :=
  ∀ (s t u : State) (a b : Response), s.initialised = true →
    exec .isat s = .next t → exec (.rdsr 0x00) s = .next u →
    t.responses = s.responses ++ [a] → u.responses = s.responses ++ [b] →
      (a.r1 = 0x00000001 ↔ b.r1 = 0x00000005)

/-- R193, R119: PROC is the spec's one block of pseudocode, with the shaper's guards and polynomial written out too, and with the
OPEN waveform `oscWave` (log entry 3). The four computed
words that leave a port go through `portBits`, which leaves every value but a NaN as it is (R104); the free bits of a NaN and
their counter are the model's choice (log entry 2). -/
def Obligations.ProcIsTheWholePseudocode : Prop :=
  ∀ (m c1 c2 : F32) (s : State),
    let legal : Prop := finite m = true ∧ fge m 0x00000000 = true
    let rejectedWith (r0 : Word) : Prop :=
      exec (.proc m c1 c2) s = .next { s with responses := s.responses ++ [⟨r0, 0x00000000⟩] }
    let phase1 := if s.sweep = .pending then 0x00000000 else s.lfoPhase
    let flfoNow := fmul s.lfoBaseFreq m
    let l := fmul 0x3F000000 (fsub (fmul 0x40000000 phase1) 0x3F800000)
    let wrap (x : F32) : F32 :=
      let y := fsub x (ffloor x)
      if fle 0x00000000 y && flt y 0x3F800000 then y else 0x00000000
    let t := fadd l 0x3F000000
    let u := fsub 0x3F800000 t
    let sh :=
      if feq t 0x00000000 then 0x00000000
      else if feq t 0x3F800000 then 0x3F800000
      else
        fadd
          (fadd (fmul (fmul (fmul (fmul 0x40400000 u) u) t) c1) (fmul (fmul (fmul (fmul 0x40400000 u) t) t) c2))
          (fmul (fmul t t) t)
    let v := if fgt s.startFreq s.targetFreq then fsub 0x3F800000 sh else sh
    let low := if fgt s.startFreq s.targetFreq then s.targetFreq else s.startFreq
    let high := if fgt s.startFreq s.targetFreq then s.startFreq else s.targetFreq
    let cand := fadd (fmul (fdiv (fsub v 0x00000000) 0x3F800000) (fsub high low)) low
    let conv := fle (fabs (fsub cand s.targetFreq)) 0x3F800000 || !(fle low cand && fle cand high)
    let atTarget := decide (s.sweep = .atTarget) || conv
    let clamped := if flt cand low then low else if fgt cand high then high else cand
    let current := if atTarget then s.targetFreq else clamped
    let count := s.oscCount.toNat
    let acc := (List.finRange 16).foldl
      (fun acc i => if i.val < count then fadd acc (oscWave s.oscPhase[i]) else acc) 0x00000000
    let out := portBits (s.nanDraws + 3) acc
    (s.initialised = false → rejectedWith 0x00000002) ∧
    (s.initialised = true → ¬ legal → rejectedWith 0x00000101) ∧
    (s.initialised = true → legal → exec (.proc m c1 c2) s = .next { s with
      sweep := if atTarget then .atTarget else .inTransit
      lfoPhase := wrap (fadd phase1 (fdiv flfoNow s.sampleRate))
      currentFreq := current
      oscPhase := Vector.ofFn (fun i =>
        if i.val < count then
          wrap (fadd s.oscPhase[i] (fdiv (fadd current s.detuneOffset[i]) s.sampleRate))
        else s.oscPhase[i])
      trace := s.trace ++ [{
        start := s.startFreq
        target := s.targetFreq
        stateBefore := match s.sweep with
          | .pending => 0
          | .inTransit => 1
          | .atTarget => 2
        stateAfter := if atTarget then 2 else 1
        lfoValue := portBits s.nanDraws t
        shaped := portBits (s.nanDraws + 1) sh
        unconstrained := if s.sweep = .atTarget then s.targetFreq else portBits (s.nanDraws + 2) cand
        clamped := current
        output := out }]
      responses := s.responses ++ [⟨0x00000000, out⟩]
      nanDraws := s.nanDraws + 4 })

/-! ### Whole-machine rules -/

/-- R79, R80, R81: every command answers with exactly one response, of a status code 0 to 3 and zero upper bits. -/
def Obligations.OneResponsePerCommand : Prop :=
  ∀ (i : Instr) (s : State), ∃ t r, exec i s = .next t ∧ t.responses = s.responses ++ [r] ∧
    responseStatus r ∈ ([0, 1, 2, 3] : List (BitVec 8)) ∧ r.r0.extractLsb' 16 16 = 0

/-- R217: a command whose response carries a status other than OK has that response for its whole effect, with value zero. -/
def Obligations.RejectionHasNoOtherEffect : Prop :=
  ∀ (i : Instr) (s t : State) (r : Response),
    exec i s = .next t → t.responses = s.responses ++ [r] → responseStatus r ≠ 0 →
      t = { s with responses := s.responses ++ [r] } ∧ r.r1 = 0x00000000

/-- R195, R196: an accepted PROC emits one record, whose last word is the value of the response; nothing else emits any. -/
def Obligations.OneTraceRecordPerAcceptedProc : Prop :=
  ∀ (i : Instr) (s t : State) (r : Response),
    exec i s = .next t → t.responses = s.responses ++ [r] →
      if responseStatus r = 0 ∧ (∃ m c1 c2, i = .proc m c1 c2) then
        ∃ record, t.trace = s.trace ++ [record] ∧ record.output = r.r1
      else t.trace = s.trace

/-- R28, R220: only an accepted INIT sets `INITIALISED`, and no command clears it. -/
def Obligations.OnlyInitSetsInitialised : Prop :=
  ∀ (i : Instr) (s t : State), exec i s = .next t →
    (s.initialised = true → t.initialised = true) ∧
    (s.initialised = false → t.initialised = true → ∃ n fstart fs flfo d, i = .init n fstart fs flfo d)

/-- R34 to R36, R247: nothing but INIT changes the count, the sample rate or the LFO base frequency of the voice. -/
def Obligations.OnlyInitChangesTheConfiguration : Prop :=
  ∀ (i : Instr) (s t : State), exec i s = .next t →
    t.oscCount ≠ s.oscCount ∨ t.sampleRate ≠ s.sampleRate ∨ t.lfoBaseFreq ≠ s.lfoBaseFreq →
      ∃ n fstart fs flfo d, i = .init n fstart fs flfo d

/-- R32, R38: nothing but INIT and SETT changes the target; nothing but INIT and PROC changes a phase; nothing but INIT and
DETUNE changes an offset. -/
def Obligations.WritersOfTargetPhasesAndOffsets : Prop :=
  ∀ (i : Instr) (s t : State), exec i s = .next t →
    (t.targetFreq ≠ s.targetFreq → (∃ n a b c d, i = .init n a b c d) ∨ ∃ f, i = .sett f) ∧
    (t.lfoPhase ≠ s.lfoPhase ∨ t.oscPhase ≠ s.oscPhase →
      (∃ n a b c d, i = .init n a b c d) ∨ ∃ m c1 c2, i = .proc m c1 c2) ∧
    (t.detuneOffset ≠ s.detuneOffset → (∃ n a b c d, i = .init n a b c d) ∨ ∃ d, i = .detune d)

/-- R198: AtTarget is terminal until the next INIT, SETT or SETS, and only those lead to Pending. -/
def Obligations.StateMovesForwardUntilRetargeted : Prop :=
  ∀ (i : Instr) (s t : State), exec i s = .next t →
    (s.sweep = .atTarget ∧ t.sweep ≠ .atTarget ∨ s.sweep ≠ .pending ∧ t.sweep = .pending) →
      (∃ n fstart fs flfo d, i = .init n fstart fs flfo d) ∨ (∃ f, i = .sett f) ∨ ∃ f, i = .sets f

/-- R198: the transition table of PROC; none leaves the voice in Pending, none leaves AtTarget, and a voice that comes to
AtTarget plays its target. -/
def Obligations.ProcTransitionTable : Prop :=
  ∀ (m c1 c2 : F32) (s : State), s.initialised = true → finite m = true → fge m 0x00000000 = true →
    ∃ t, exec (.proc m c1 c2) s = .next t ∧
      (s.sweep = .atTarget → t.sweep = .atTarget ∧ t.currentFreq = s.targetFreq) ∧
      (s.sweep ≠ .atTarget →
        let cand := candidate s.startFreq s.targetFreq (shapedOf s m c1 c2)
        if converged s.startFreq s.targetFreq cand then t.sweep = .atTarget ∧ t.currentFreq = s.targetFreq
        else t.sweep = .inTransit ∧ t.currentFreq = cand)

/-! ### Invariants -/

/-- R43, R241: the state after reset meets the invariants, and nothing is pending at its ports. The invariants
bind an initialised voice only, so none of them rests on the values the model chose for the unspecified registers (log entry
1). -/
def Obligations.ResetMeetsTheInvariants : Prop :=
  State.reset.initialised = false ∧ State.reset.inputs = [] ∧ State.reset.responses = [] ∧ State.reset.trace = [] ∧
    RegistersInvariant State.reset ∧ PhasesInvariant State.reset ∧ SlotsInvariant State.reset ∧
    ExactAtTarget State.reset

/-- R40, R41: on an initialised voice the registers stay legal and the frequency stays in the window of start and target. -/
def Obligations.StepKeepsRegistersLegalAndInWindow : Prop :=
  ∀ s t : State, RegistersInvariant s → step s = .next t → RegistersInvariant t

/-- R131, R37, R38: every phase stays finite, at least `+0.0`, below `1.0` and never `-0.0`. -/
def Obligations.StepKeepsPhasesInUnit : Prop :=
  ∀ s t : State, PhasesInvariant s → step s = .next t → PhasesInvariant t

/-- R42: in AtTarget the frequency of an initialised voice is the target, bit for bit, after every step. (Before INIT both
registers and `STATE` are unspecified, R43, and nothing is said of them.) -/
def Obligations.StepKeepsTargetExact : Prop :=
  ∀ s t : State, ExactAtTarget s → step s = .next t → ExactAtTarget t

/-- R104, R191, R210: the inactive slots keep `+0.0`, and no offset is ever a NaN. -/
def Obligations.StepKeepsSlots : Prop :=
  ∀ s t : State, SlotsInvariant s → step s = .next t → SlotsInvariant t

/-- R43, U3: what the spec leaves unspecified after reset is never observed: two states that differ only there stay
indistinguishable for ever, and become equal with the first accepted INIT. So the values the model chose (log entry 1) cannot
be observed. -/
def Obligations.UnspecifiedRegistersAreNeverObserved : Prop :=
  ∀ (s t : State) (k : Nat), Indistinguishable s t →
    ∃ s' t', core.run k s = .next s' ∧ core.run k t = .next t' ∧ Indistinguishable s' t' ∧
      s'.responses = t'.responses ∧ s'.trace = t'.trace ∧ (s'.initialised = true → s' = t')

/-! ### Arithmetic -/

/-- R98, R99: a finite sum is nearest to the exact one among all finite f32, and of two equally near the one with an even last
bit. -/
def Obligations.SumIsTheNearestValue : Prop :=
  ∀ a b c : F32, finite a = true → finite b = true → finite c = true → finite (fadd a b) = true →
    (value (fadd a b) - (value a + value b)).natAbs ≤ (value c - (value a + value b)).natAbs ∧
    ((value (fadd a b) - (value a + value b)).natAbs = (value c - (value a + value b)).natAbs →
      value c ≠ value (fadd a b) → magPattern (fadd a b) % 2 = 0)

/-- R98: a sum overflows to the infinity of its sign exactly when its magnitude is at least the largest finite one and half a
last place. -/
def Obligations.SumOverflowsToInfinity : Prop :=
  ∀ a b : F32, finite a = true → finite b = true →
    (isInf (fadd a b) = true ↔ (2 ^ 25 - 1) * 2 ^ 252 ≤ (value a + value b).natAbs) ∧
    (isInf (fadd a b) = true → signBit (fadd a b) = decide (value a + value b < 0)) ∧ isNaN (fadd a b) = false

/-- R98, R100: a product of finite values has the exclusive-or of the signs and is no NaN; it is an infinity exactly when its
magnitude is at least the largest finite one and half a last place; otherwise it is nearest to the exact one, ties to even. -/
def Obligations.ProductIsTheNearestValue : Prop :=
  ∀ a b c : F32, finite a = true → finite b = true → finite c = true →
    signBit (fmul a b) = (signBit a != signBit b) ∧ isNaN (fmul a b) = false ∧
    (isInf (fmul a b) = true ↔ (2 ^ 25 - 1) * 2 ^ 252 * 2 ^ 149 ≤ (value a * value b).natAbs) ∧
    (finite (fmul a b) = true →
      (value (fmul a b) * 2 ^ 149 - value a * value b).natAbs ≤ (value c * 2 ^ 149 - value a * value b).natAbs ∧
      ((value (fmul a b) * 2 ^ 149 - value a * value b).natAbs = (value c * 2 ^ 149 - value a * value b).natAbs →
        value c ≠ value (fmul a b) → magPattern (fmul a b) % 2 = 0))

/-- R98, R101: a quotient of finite values, the divisor not zero, has the exclusive-or of the signs and is no NaN; it is an
infinity exactly when its magnitude is at least the largest finite one and half a last place; otherwise it is nearest to the
exact one, ties to even. Magnitudes and distances are compared after multiplication by the divisor. -/
def Obligations.QuotientIsTheNearestValue : Prop :=
  ∀ a b c : F32, finite a = true → finite b = true → finite c = true → isZero b = false →
    signBit (fdiv a b) = (signBit a != signBit b) ∧ isNaN (fdiv a b) = false ∧
    (isInf (fdiv a b) = true ↔ (2 ^ 25 - 1) * 2 ^ 252 * (value b).natAbs ≤ (value a).natAbs * 2 ^ 149) ∧
    (finite (fdiv a b) = true →
      (value (fdiv a b) * value b - value a * 2 ^ 149).natAbs ≤ (value c * value b - value a * 2 ^ 149).natAbs ∧
      ((value (fdiv a b) * value b - value a * 2 ^ 149).natAbs = (value c * value b - value a * 2 ^ 149).natAbs →
        value c ≠ value (fdiv a b) → magPattern (fdiv a b) % 2 = 0))

/-- R99: the special cases of sums and differences. -/
def Obligations.SpecialSums : Prop :=
  (∀ a b, isNaN a = true ∨ isNaN b = true → isNaN (fadd a b) = true ∧ isNaN (fsub a b) = true) ∧
  isNaN (fadd 0x7F800000 0xFF800000) = true ∧ isNaN (fsub 0x7F800000 0x7F800000) = true ∧
  (∀ a b, isInf a = true → finite b = true → fadd a b = a ∧ fadd b a = a ∧ fsub a b = a) ∧
  (∀ x, finite x = true → fsub x x = 0x00000000) ∧
  fadd 0x00000000 0x80000000 = 0x00000000 ∧ fadd 0x80000000 0x80000000 = 0x80000000

/-- R100, R101: the special cases of products and quotients. -/
def Obligations.SpecialProductsAndQuotients : Prop :=
  (∀ a b, isNaN a = true ∨ isNaN b = true → isNaN (fmul a b) = true ∧ isNaN (fdiv a b) = true) ∧
  (∀ a b, isZero a = true → isInf b = true → isNaN (fmul a b) = true ∧ isNaN (fmul b a) = true) ∧
  (∀ a b, isInf a = true → isNaN b = false → isZero b = false →
    isInf (fmul a b) = true ∧ isInf (fmul b a) = true) ∧
  (∀ a b, (isZero a = true ∧ isZero b = true) ∨ (isInf a = true ∧ isInf b = true) → isNaN (fdiv a b) = true) ∧
  (∀ a b, finite a = true → isZero a = false → isZero b = true →
    isInf (fdiv a b) = true ∧ signBit (fdiv a b) = (signBit a != signBit b)) ∧
  (∀ a b, finite a = true → isInf b = true → isZero (fdiv a b) = true)

/-- R102: the floor of a finite value is the largest integer not above it, exactly; infinities, NaNs and zeros stay. The
integers from −8 to 8, the only ones converted, convert exactly, and 0 to `+0.0`. -/
def Obligations.FloorAndIntegersAreExact : Prop :=
  (∀ a, finite a = true →
    finite (ffloor a) = true ∧
    ∃ k : Int, value (ffloor a) = k * 2 ^ 149 ∧ k * 2 ^ 149 ≤ value a ∧ value a < (k + 1) * 2 ^ 149) ∧
  (∀ a, isInf a = true ∨ isZero a = true → ffloor a = a) ∧ (∀ a, isNaN a = true → isNaN (ffloor a) = true) ∧
  (∀ k : Int, -8 ≤ k → k ≤ 8 → finite (i2f k) = true ∧ value (i2f k) = k * 2 ^ 149) ∧ i2f 0 = 0x00000000

/-- R121: the shaper's endpoints, bit for bit, for all ordinates, non-finite ones among them. -/
def Obligations.ShaperEndpointsAreExact : Prop :=
  ∀ y2 y3 : F32, shape y2 y3 0x00000000 = 0x00000000 ∧ shape y2 y3 0x80000000 = 0x00000000 ∧
    shape y2 y3 0x3F800000 = 0x3F800000

/-- R12, R97, R103, R102, R106, R108, R109: the classes and the numeric value (in units of 2^-149) of a pattern, from its sign,
exponent and fraction; the comparisons, by numeric value, false with a NaN; the absolute value, also of a NaN; reversed bounds
corrected; and a clamp that stays inside, or changes nothing that is inside or a NaN. -/
def Obligations.ComparisonsRangesAndClamps : Prop :=
  (∀ v : F32,
    let s := v.getLsbD 31
    let e := (v.extractLsb' 23 8).toNat
    let f := (v.extractLsb' 0 23).toNat
    (finite v = true ↔ e ≠ 255) ∧ (isInf v = true ↔ e = 255 ∧ f = 0) ∧ (isNaN v = true ↔ e = 255 ∧ f ≠ 0) ∧
    (isZero v = true ↔ e = 0 ∧ f = 0) ∧ signBit v = s ∧
    (e ≠ 255 → value v = (if s then -1 else 1) * ((if e = 0 then f else (2 ^ 23 + f) * 2 ^ (e - 1) : Nat) : Int))) ∧
  (∀ a b, isNaN a = true ∨ isNaN b = true →
    flt a b = false ∧ fle a b = false ∧ fgt a b = false ∧ fge a b = false ∧ feq a b = false) ∧
  (∀ a b, finite a = true → finite b = true →
    (flt a b = true ↔ value a < value b) ∧ (fle a b = true ↔ value a ≤ value b) ∧ (fgt a b = true ↔ value b < value a) ∧
    (fge a b = true ↔ value b ≤ value a) ∧ (feq a b = true ↔ value a = value b)) ∧
  (∀ a b, isNaN a = false → isNaN b = false →
    fgt a b = flt b a ∧ fge a b = fle b a ∧ fle a b = !flt b a ∧ feq a b = (fle a b && fle b a)) ∧
  (∀ x, finite x = true →
    flt x 0x7F800000 = true ∧ flt 0x7F800000 x = false ∧ flt 0xFF800000 x = true ∧ flt x 0xFF800000 = false) ∧
  flt 0xFF800000 0x7F800000 = true ∧ flt 0x7F800000 0xFF800000 = false ∧
  flt 0x7F800000 0x7F800000 = false ∧ flt 0xFF800000 0xFF800000 = false ∧ feq 0x80000000 0x00000000 = true ∧
  (∀ v : F32, fabs v = v &&& 0x7FFFFFFF) ∧
  (∀ a b, isNaN a = false → isNaN b = false →
    fle (rangeNew a b).low (rangeNew a b).high = true ∧
    rangeNew a b = (if fgt a b then ⟨b, a⟩ else ⟨a, b⟩)) ∧
  (∀ a b, isNaN a = true ∨ isNaN b = true → rangeNew a b = ⟨a, b⟩) ∧
  (∀ r v, fle r.low r.high = true → isNaN v = false →
    rangeContains r (rangeConstrain r v) = true ∧
    (flt v r.low = true → rangeConstrain r v = r.low) ∧ (fgt v r.high = true → rangeConstrain r v = r.high)) ∧
  (∀ r v, rangeContains r v = true ∨ isNaN v = true → rangeConstrain r v = v)

/-- R115, R183: for the one Scaler the machine builds, the subtraction of zero and the division by one are exact. For a NaN the
equality of bits is the model's choice: all NaNs inside a command are one value (log entry 2). -/
def Obligations.WindowScalerIsTwoRoundings : Prop :=
  ∀ (window : Range) (v : F32),
    scalerScale (windowScaler window) v = fadd (fmul v (rangeLength window)) window.low

/-- R131: the next phase is finite, at least `+0.0`, below `1.0` and never `-0.0`, whatever phase, frequency and rate. -/
def Obligations.NextPhaseIsInUnit : Prop :=
  ∀ p f fs : F32, phaseOk (nextPhase p f fs) = true

/-- R145: an oscillator with an infinite offset stands at phase `+0.0`. -/
def Obligations.InfiniteOffsetHoldsThePhase : Prop :=
  ∀ p current offset fs : F32, phaseOk p = true → finite current = true → isInf offset = true →
    finite fs = true → fgt fs 0x00000000 = true → nextPhase p (fadd current offset) fs = 0x00000000

/-- R178: the normalised ramp of a legal phase is at least `+0.0` and never reaches `1.0`, and is `+0.0` at phase `+0.0`. -/
def Obligations.RampStaysInUnit : Prop :=
  (∀ p : F32, phaseOk p = true → phaseOk (normalise (lfoWave p)) = true) ∧ normalise (lfoWave 0x00000000) = 0x00000000

/-- R141, R142: with two or more oscillators the multiples are the consecutive integers from −half to N − half with zero left
out, mirrored for an even count; a single oscillator has the multiple zero. -/
def Obligations.DetuneMultiplesSkipZero : Prop :=
  detuneMultiple 0 1 = 0 ∧
  (∀ n, 2 ≤ n → (List.range n).map (fun i => detuneMultiple i n) =
    (List.range (n / 2)).map (fun j => (j : Int) - (n / 2 : Nat)) ++
      (List.range (n - n / 2)).map (fun j => (j : Int) + 1)) ∧
  (∀ n i, n % 2 = 0 → i < n → detuneMultiple i n = -detuneMultiple (n - 1 - i) n)

/-! ### Sweeps and samples -/

/-- R197: the first sample of an ascending sweep is played at the start frequency, and completes the sweep exactly when the
target is within 1.0 Hz. -/
def Obligations.AscendingSweepStartsAtItsStart : Prop :=
  ∀ (m c1 c2 : F32) (s : State), s.initialised = true → RegistersLegal s → s.sweep = .pending →
    finite m = true → fge m 0x00000000 = true → fle s.startFreq s.targetFreq = true →
      ∃ t, exec (.proc m c1 c2) s = .next t ∧
        feq (candidate s.startFreq s.targetFreq (shapedOf s m c1 c2)) s.startFreq = true ∧
        (if fle (fsub s.targetFreq s.startFreq) 0x3F800000 then t.sweep = .atTarget ∧ t.currentFreq = s.targetFreq
        else t.sweep = .inTransit ∧ feq t.currentFreq s.startFreq = true)

/-- R202: the first candidate of a descending sweep is the start less the target, plus the target, each rounded; above the start
it completes the sweep at once, a sweep skipped, and otherwise the sweep starts there unless it is within 1.0 Hz. -/
def Obligations.DescendingSweepMayBeSkipped : Prop :=
  ∀ (m c1 c2 : F32) (s : State), s.initialised = true → RegistersLegal s → s.sweep = .pending →
    finite m = true → fge m 0x00000000 = true → fgt s.startFreq s.targetFreq = true →
      let first := fadd (fsub s.startFreq s.targetFreq) s.targetFreq
      ∃ t, exec (.proc m c1 c2) s = .next t ∧
        (if fgt first s.startFreq || fle (fabs (fsub first s.targetFreq)) 0x3F800000 then
          t.sweep = .atTarget ∧ t.currentFreq = s.targetFreq
        else t.sweep = .inTransit ∧ t.currentFreq = first)

/-- R199: a sweep over a window of zero length completes in its first sample. -/
def Obligations.ZeroLengthWindowCompletesAtOnce : Prop :=
  ∀ (m c1 c2 : F32) (s : State), s.initialised = true → RegistersLegal s → feq s.startFreq s.targetFreq = true →
    finite m = true → fge m 0x00000000 = true →
      ∃ t, exec (.proc m c1 c2) s = .next t ∧ t.sweep = .atTarget ∧ t.currentFreq = s.targetFreq

/-- R184, R203: a candidate that is a NaN or an infinity completes the sweep, whatever the legal window. -/
def Obligations.NonFiniteCandidateConverges : Prop :=
  ∀ start target cand : F32, frequencyOk start = true → frequencyOk target = true → finite cand = false →
    converged start target cand = true

/-- R200: with a zero multiplier, or a zero LFO base frequency, PROC is accepted and the ramp stands still. The LFO phase does not
move from where step 1 leaves it, `+0.0` in Pending; no later PROC has another ramp `t` while the phase stands; and from phase
`+0.0` the ramp and the shaped value are `+0.0`, so the candidate is that of the start of the sweep. (With other control points
a sweep held further on may move or complete, R256.) -/
def Obligations.ZeroRateHoldsTheRamp : Prop :=
  ∀ (m c1 c2 : F32) (s : State), s.initialised = true → RegistersLegal s → PhasesLegal s →
    finite m = true → fge m 0x00000000 = true → (isZero m = true ∨ isZero s.lfoBaseFreq = true) →
      ∃ t r record, exec (.proc m c1 c2) s = .next t ∧
        t.responses = s.responses ++ [r] ∧ responseStatus r = 0 ∧ t.trace = s.trace ++ [record] ∧
        t.sweep ≠ .pending ∧ t.lfoPhase = (if s.sweep = .pending then 0x00000000 else s.lfoPhase) ∧
        (∀ m' : F32, rampOf t m' = record.lfoValue) ∧
        (t.lfoPhase = 0x00000000 → record.lfoValue = 0x00000000 ∧ record.shaped = 0x00000000 ∧
          (s.sweep ≠ .atTarget → record.unconstrained = candidate s.startFreq s.targetFreq 0x00000000))

/-- R190, R204 item 8: every sample of an initialised voice with legal phases is finite, whatever the control points and
whatever waveform R136 allows (the opaque `oscWave`, log entry 3). -/
def Obligations.EverySampleIsFinite : Prop :=
  ∀ (m c1 c2 : F32) (s : State), s.initialised = true → PhasesLegal s → finite m = true → fge m 0x00000000 = true →
    ∃ t r, exec (.proc m c1 c2) s = .next t ∧ t.responses = s.responses ++ [r] ∧ responseStatus r = 0 ∧
      finite r.r1 = true
end

