-- ==== Sys2Proof/Laws/Decode.lean ====
section
/-! SUPPORT. Laws of the encoding: the fields of a header the encoder writes, the row each such header selects, and the
header a selected row fixes. -/

namespace Sys2Proof

@[simp] theorem headerIdx_encodeHeader (idx opc : BitVec 8) : headerIdx (encodeHeader idx opc) = idx := by
  ext i hi
  simp [headerIdx, encodeHeader, show 8 + i < 32 by omega, BitVec.getLsbD_eq_getElem hi]

@[simp] theorem headerOpc_encodeHeader (idx opc : BitVec 8) : headerOpc (encodeHeader idx opc) = opc := by
  ext i hi
  simp [headerOpc, encodeHeader, show i < 32 by omega, hi]

@[simp] theorem headerRsv_encodeHeader (idx opc : BitVec 8) : headerRsv (encodeHeader idx opc) = 0 := by
  ext i hi
  simp [headerRsv, encodeHeader, show 16 + i < 32 by omega, BitVec.getLsbD_of_ge _ _ (show 8 ≤ 16 + i - 8 by omega),
    BitVec.getLsbD_of_ge _ _ (show 8 ≤ 16 + i by omega)]

/-- A header whose reserved field is zero is the header of its index and its opcode. -/
theorem header_of_fields (h : Word) (hr : headerRsv h = 0) : h = encodeHeader (headerIdx h) (headerOpc h) := by
  apply BitVec.eq_of_getLsbD_eq
  intro i hi
  by_cases h16 : 16 ≤ i
  · have := congrArg (fun r => BitVec.getLsbD r (i - 16)) hr
    simp [headerRsv, show i - 16 < 16 by omega, show 16 + (i - 16) = i by omega, BitVec.getLsbD_eq_getElem hi] at this
    simp [encodeHeader, headerIdx, headerOpc, this, hi, show ¬ i < 8 by omega, show ¬ i - 8 < 8 by omega]
  · by_cases h8 : i < 8
    · simp [encodeHeader, headerOpc, hi, h8]
    · simp [encodeHeader, headerIdx, headerOpc, hi, h8, show i - 8 < 8 by omega, show 8 + (i - 8) = i by omega]

theorem selectRow_init : selectRow (encodeHeader 0#8 0x01#8) = some ⟨.INIT, 0xFFFFFFFF, 0x00000001, 5⟩ := by decide
theorem selectRow_sett : selectRow (encodeHeader 0#8 0x02#8) = some ⟨.SETT, 0xFFFFFFFF, 0x00000002, 1⟩ := by decide
theorem selectRow_sets : selectRow (encodeHeader 0#8 0x03#8) = some ⟨.SETS, 0xFFFFFFFF, 0x00000003, 1⟩ := by decide
theorem selectRow_detune : selectRow (encodeHeader 0#8 0x04#8) = some ⟨.DETUNE, 0xFFFFFFFF, 0x00000004, 1⟩ := by decide
theorem selectRow_proc : selectRow (encodeHeader 0#8 0x08#8) = some ⟨.PROC, 0xFFFFFFFF, 0x00000008, 3⟩ := by decide
theorem selectRow_isat : selectRow (encodeHeader 0#8 0x11#8) = some ⟨.ISAT, 0xFFFFFFFF, 0x00000011, 0⟩ := by decide

theorem selectRow_rdsr (idx : BitVec 8) (h : definedIndex idx = true) :
    selectRow (encodeHeader idx 0x10#8) = some ⟨.RDSR, 0xFFFF00FF, 0x00000010, 0⟩ := by
  revert idx
  decide

/-- The RDSR mask leaves only the index free. -/
theorem rdsr_mask (h : Word) (hm : h &&& 0xFFFF00FF#32 = 0x00000010#32) : h = encodeHeader (headerIdx h) 0x10#8 := by
  have hr : headerRsv h = 0 := by
    ext i hi
    have := congrArg (fun w => BitVec.getLsbD w (16 + i)) hm
    simp only [BitVec.getLsbD_and] at this
    simp only [headerRsv, BitVec.getElem_extractLsb']
    interval_cases i <;> simp_all
  have ho : headerOpc h = 0x10#8 := by
    ext i hi
    have := congrArg (fun w => BitVec.getLsbD w i) hm
    simp only [BitVec.getLsbD_and] at this
    simp only [headerOpc, BitVec.getElem_extractLsb', Nat.zero_add]
    interval_cases i <;> simp_all
  rw [← ho]
  exact header_of_fields h hr

/-- The decoder on a header that selects a row. -/
theorem decode_of_row {h : Word} {r : OpcodeRow} (rest : List Word) (hs : selectRow h = some r) :
    decode (h :: rest) = takeOperands r.mnemonic h rest := by simp [decode, hs]

/-- The decoder on a header that selects none. -/
theorem decode_of_none {h : Word} (rest : List Word) (hs : selectRow h = none) :
    decode (h :: rest) = .illegal (illegalReason h) rest := by simp [decode, hs]

/-- Everything a selected row says of the header: the mnemonic fixes every bit but the index of an RDSR. -/
theorem selectRow_cases {h : Word} {r : OpcodeRow} (hs : selectRow h = some r) :
    (r.mnemonic = .INIT ∧ h = encodeHeader 0#8 0x01#8) ∨ (r.mnemonic = .SETT ∧ h = encodeHeader 0#8 0x02#8) ∨
      (r.mnemonic = .SETS ∧ h = encodeHeader 0#8 0x03#8) ∨ (r.mnemonic = .DETUNE ∧ h = encodeHeader 0#8 0x04#8) ∨
      (r.mnemonic = .PROC ∧ h = encodeHeader 0#8 0x08#8) ∨
      (r.mnemonic = .RDSR ∧ definedIndex (headerIdx h) = true ∧ h = encodeHeader (headerIdx h) 0x10#8) ∨
      (r.mnemonic = .ISAT ∧ h = encodeHeader 0#8 0x11#8) := by
  have all (w : Word) : w &&& 0xFFFFFFFF#32 = w := BitVec.and_allOnes
  have hm := List.mem_of_find?_eq_some hs
  have hp := List.find?_some hs
  simp only [rowSelected, Bool.and_eq_true, beq_iff_eq] at hp
  simp only [opcodeTable, List.mem_cons, List.not_mem_nil, or_false] at hm
  rcases hm with rfl | rfl | rfl | rfl | rfl | rfl | rfl <;> simp_all
  all_goals first | decide | exact rdsr_mask h hp.1

end Sys2Proof
end

