-- ==== Sys2Proof/Laws/Float.lean ====
section
/-! SUPPORT. Laws of the f32 primitives: patterns and signs, the magnitude of a pattern, and what `roundMag` does, said once
(`roundMag_spec`): the quotient lies between two neighbouring patterns and the nearer one is taken, ties to even. -/

namespace Sys2Proof.Machine

/-! ### Patterns -/

theorem magPattern_lt (v : F32) : magPattern v < 2 ^ 31 := Nat.mod_lt _ (by decide)

theorem signBit_eq (v : F32) : signBit v = decide (2 ^ 31 ≤ v.toNat) := by
  simp [signBit, BitVec.msb_eq_decide]

theorem toNat_eq (v : F32) : v.toNat = (if signBit v then 2 ^ 31 else 0) + magPattern v := by
  have := v.isLt
  simp only [signBit_eq, magPattern, decide_eq_true_eq]
  split
  all_goals omega

@[simp] theorem toNat_packF32 {neg : Bool} {p : Nat} (h : p < 2 ^ 31) :
    (packF32 neg p).toNat = (if neg then 2 ^ 31 else 0) + p := by
  cases neg <;> simp [packF32] <;> omega

@[simp] theorem magPattern_packF32 {neg : Bool} {p : Nat} (h : p < 2 ^ 31) :
    magPattern (packF32 neg p) = p := by
  rw [magPattern, toNat_packF32 h]
  cases neg
  · simp; omega
  · simp; omega

@[simp] theorem signBit_packF32 {neg : Bool} {p : Nat} (h : p < 2 ^ 31) : signBit (packF32 neg p) = neg := by
  rw [signBit_eq, toNat_packF32 h]
  cases neg
  · simpa using h
  · simp

/-- A pattern is its sign and its magnitude pattern. -/
@[simp] theorem packF32_self (v : F32) : packF32 (signBit v) (magPattern v) = v := by
  apply BitVec.eq_of_toNat_eq
  rw [toNat_packF32 (magPattern_lt v), ← toNat_eq]

theorem f32_ext {a b : F32} (hs : signBit a = signBit b) (hm : magPattern a = magPattern b) : a = b := by
  rw [← packF32_self a, ← packF32_self b, hs, hm]

@[simp] theorem signBit_fneg (v : F32) : signBit (fneg v) = !signBit v := signBit_packF32 (magPattern_lt v)

@[simp] theorem magPattern_fneg (v : F32) : magPattern (fneg v) = magPattern v := magPattern_packF32 (magPattern_lt v)

@[simp] theorem signBit_fabs (v : F32) : signBit (fabs v) = false := signBit_packF32 (magPattern_lt v)

@[simp] theorem magPattern_fabs (v : F32) : magPattern (fabs v) = magPattern v := magPattern_packF32 (magPattern_lt v)

@[simp] theorem isNaN_fneg (v : F32) : isNaN (fneg v) = isNaN v := by simp [isNaN]

@[simp] theorem isNaN_fabs (v : F32) : isNaN (fabs v) = isNaN v := by simp [isNaN]

@[simp] theorem isInf_fneg (v : F32) : isInf (fneg v) = isInf v := by simp [isInf]

@[simp] theorem finite_fneg (v : F32) : finite (fneg v) = finite v := by simp [finite]

@[simp] theorem value_fneg (v : F32) : value (fneg v) = -value v := by
  cases h : signBit v <;> simp [value, h]

/-- The three classes exclude each other: a finite value is no NaN and no infinity. -/
theorem finite_iff (v : F32) : finite v = true ↔ isNaN v = false ∧ isInf v = false := by
  simp only [finite, isNaN, isInf, decide_eq_true_eq, decide_eq_false_iff_not, beq_eq_false_iff_ne]
  omega

/-! ### Magnitudes -/

/-- A pattern split as a multiple `k` of 2^23 and a significand `m`, in the three ways it can be. -/
theorem magnitude_split {k m : Nat} (h : (k = 0 ∧ m < 2 ^ 24) ∨ (2 ^ 23 ≤ m ∧ m ≤ 2 ^ 24)) :
    magnitude (k * 2 ^ 23 + m) = m * 2 ^ k := by
  unfold magnitude
  by_cases h0 : (k * 2 ^ 23 + m) / 2 ^ 23 = 0
  · have hk : k = 0 := by omega
    subst hk
    rw [if_pos h0]
    omega
  · rw [if_neg h0]
    by_cases h24 : m = 2 ^ 24
    · subst h24
      have h1 : (k * 2 ^ 23 + 2 ^ 24) / 2 ^ 23 = k + 2 := by omega
      have h2 : (k * 2 ^ 23 + 2 ^ 24) % 2 ^ 23 = 0 := by omega
      rw [h1, h2, show k + 2 - 1 = k + 1 from rfl, pow_succ]
      ring
    · have h1 : (k * 2 ^ 23 + m) / 2 ^ 23 = k + 1 := by omega
      have h2 : 2 ^ 23 + (k * 2 ^ 23 + m) % 2 ^ 23 = m := by omega
      rw [h1, h2, Nat.add_sub_cancel]

theorem magnitude_lt_succ (p : Nat) : magnitude p < magnitude (p + 1) := by
  by_cases hp : p / 2 ^ 23 = 0
  · have e0 := magnitude_split (k := 0) (m := p) (.inl ⟨rfl, by omega⟩)
    have e1 := magnitude_split (k := 0) (m := p + 1) (.inl ⟨rfl, by omega⟩)
    simp only [Nat.zero_mul, Nat.zero_add] at e0 e1
    rw [e0, e1]
    simp
  · obtain ⟨k, hk⟩ : ∃ k, p / 2 ^ 23 = k + 1 := ⟨p / 2 ^ 23 - 1, by omega⟩
    obtain ⟨m, hm⟩ : ∃ m, p = k * 2 ^ 23 + m := ⟨p - k * 2 ^ 23, by omega⟩
    have h1 : 2 ^ 23 ≤ m := by omega
    have h2 : m < 2 ^ 24 := by omega
    subst hm
    rw [magnitude_split (.inr ⟨h1, by omega⟩), show k * 2 ^ 23 + m + 1 = k * 2 ^ 23 + (m + 1) by omega,
      magnitude_split (.inr ⟨by omega, by omega⟩)]
    exact Nat.mul_lt_mul_of_pos_right (by omega) (Nat.two_pow_pos k)

/-- A larger pattern has a larger magnitude: the order of the patterns is the order of the values. -/
theorem magnitude_strictMono : StrictMono magnitude := strictMono_nat_of_lt_succ magnitude_lt_succ

theorem magnitude_lt_iff {p q : Nat} : magnitude p < magnitude q ↔ p < q := magnitude_strictMono.lt_iff_lt

theorem magnitude_le_iff {p q : Nat} : magnitude p ≤ magnitude q ↔ p ≤ q := magnitude_strictMono.le_iff_le

@[simp] theorem magnitude_zero : magnitude 0 = 0 := rfl

theorem magnitude_eq_zero {p : Nat} : magnitude p = 0 ↔ p = 0 :=
  ⟨fun h => magnitude_strictMono.injective (h.trans magnitude_zero.symm), fun h => h ▸ magnitude_zero⟩

theorem natAbs_value (v : F32) : (value v).natAbs = magnitude (magPattern v) := by
  unfold value
  split <;> simp

theorem value_packF32 {neg : Bool} {p : Nat} (h : p < 2 ^ 31) :
    value (packF32 neg p) = if neg then -(magnitude p : Int) else (magnitude p : Int) := by
  simp [value, signBit_packF32 h, magPattern_packF32 h]

theorem value_eq_zero (v : F32) : value v = 0 ↔ isZero v = true := by
  rw [← Int.natAbs_eq_zero, natAbs_value, magnitude_eq_zero]
  simp [isZero]

/-! ### Rounding (R98) -/

/-- Everything `roundMag` does: the quotient `num / den` lies from the pattern `p` up to its successor, and the result is the
nearer of the two, at equal distance the even one, or infinity. -/
theorem roundMag_spec (num : Nat) {den : Nat} (hd : 0 < den) :
    ∃ p, magnitude p * den ≤ num ∧ num < magnitude (p + 1) * den ∧
      (2 * num < (magnitude p + magnitude (p + 1)) * den ∧ roundMag num den = min p infPattern ∨
       (magnitude p + magnitude (p + 1)) * den < 2 * num ∧ roundMag num den = min (p + 1) infPattern ∨
       2 * num = (magnitude p + magnitude (p + 1)) * den ∧ roundMag num den = min (p + p % 2) infPattern) := by
  obtain ⟨k, hk⟩ : ∃ k, k = Nat.log2 (num / den) - 23 := ⟨_, rfl⟩
  obtain ⟨unit, hu⟩ : ∃ u, u = den * 2 ^ k := ⟨_, rfl⟩
  have hpos : 0 < unit := hu ▸ Nat.mul_pos hd (Nat.two_pow_pos k)
  obtain ⟨m, hm⟩ : ∃ m, m = num / unit := ⟨_, rfl⟩
  obtain ⟨r, hr⟩ : ∃ r, r = num % unit := ⟨_, rfl⟩
  have hnum : num = m * unit + r := by rw [hm, hr, Nat.mul_comm]; exact (Nat.div_add_mod num unit).symm
  have hrlt : r < unit := hr ▸ Nat.mod_lt _ hpos
  have hm' : m = num / den / 2 ^ k := by rw [hm, hu, Nat.div_div_eq_div_mul]
  have hshape : (k = 0 ∧ m < 2 ^ 24) ∨ (2 ^ 23 ≤ m ∧ m < 2 ^ 24) := by
    by_cases hq : num / den < 2 ^ 24
    · left
      have hk0 : k = 0 := by
        rcases Nat.eq_zero_or_pos (num / den) with h0 | h0
        · rw [hk, h0]; rfl
        · have := (Nat.log2_lt (by omega)).mpr hq
          omega
      exact ⟨hk0, by rw [hm', hk0]; simpa using hq⟩
    · right
      have h0 : num / den ≠ 0 := by omega
      have hge : 24 ≤ Nat.log2 (num / den) := (Nat.le_log2 h0).mpr (by omega)
      have hle := Nat.log2_self_le h0
      have hlt : num / den < 2 ^ (Nat.log2 (num / den) + 1) := Nat.lt_log2_self
      have e1 : Nat.log2 (num / den) = 23 + k := by omega
      rw [e1, pow_add] at hle
      rw [e1, show 23 + k + 1 = 24 + k by omega, pow_add] at hlt
      exact ⟨by rw [hm']; exact (Nat.le_div_iff_mul_le (Nat.two_pow_pos k)).mpr hle,
        by rw [hm']; exact (Nat.div_lt_iff_lt_mul (Nat.two_pow_pos k)).mpr hlt⟩
  have e0 : magnitude (k * 2 ^ 23 + m) = m * 2 ^ k := magnitude_split (by omega)
  have e1 : magnitude (k * 2 ^ 23 + m + 1) = (m + 1) * 2 ^ k := by
    rw [Nat.add_assoc]
    rcases hshape with ⟨h0, h1⟩ | h1
    · by_cases h2 : m + 1 = 2 ^ 24
      · exact magnitude_split (.inr (by omega))
      · exact magnitude_split (.inl (by omega))
    · exact magnitude_split (.inr (by omega))
  have s0 : magnitude (k * 2 ^ 23 + m) * den = m * unit := by rw [e0, hu]; ring
  have s1 : magnitude (k * 2 ^ 23 + m + 1) * den = m * unit + unit := by rw [e1, hu]; ring
  have hround : roundMag num den =
      min (k * 2 ^ 23 + (m + (if unit < 2 * r then 1 else if 2 * r = unit then m % 2 else 0))) infPattern := by
    simp only [roundMag, ← hk, ← hu, ← hm, ← hr]
  refine ⟨k * 2 ^ 23 + m, by omega, by omega, ?_⟩
  rw [Nat.add_mul, s0, s1, hround]
  rcases Nat.lt_trichotomy (2 * r) unit with h | h | h
  · refine .inl ⟨by omega, ?_⟩
    rw [if_neg (by omega), if_neg (by omega), Nat.add_zero]
  · refine .inr (.inr ⟨by omega, ?_⟩)
    rw [if_neg (by omega), if_pos h, show k * 2 ^ 23 + m + (k * 2 ^ 23 + m) % 2 = k * 2 ^ 23 + (m + m % 2) by omega]
  · refine .inr (.inl ⟨by omega, ?_⟩)
    rw [if_pos h, Nat.add_assoc]

/-- The three outcomes of `roundMag_spec` lie between the two neighbouring patterns. -/
theorem roundMag_between {p r : Nat} (h : r = min p infPattern ∨ r = min (p + 1) infPattern ∨ r = min (p + p % 2) infPattern) :
    min p infPattern ≤ r ∧ r ≤ min (p + 1) infPattern := by
  omega

theorem roundMag_le (num den : Nat) : roundMag num den ≤ infPattern := by
  unfold roundMag
  exact Nat.min_le_right _ _

theorem roundMag_lt (num den : Nat) : roundMag num den < 2 ^ 31 :=
  Nat.lt_of_le_of_lt (roundMag_le num den) (by decide)

/-- Rounding is exact on a representable magnitude. -/
theorem roundMag_magnitude {p den : Nat} (hd : 0 < den) (hp : p ≤ infPattern) :
    roundMag (magnitude p * den) den = p := by
  obtain ⟨q, h1, h2, h3⟩ := roundMag_spec (magnitude p * den) hd
  have hqp : q ≤ p := magnitude_le_iff.mp (Nat.le_of_mul_le_mul_right h1 hd)
  have hpq : p < q + 1 := magnitude_lt_iff.mp (Nat.lt_of_mul_lt_mul_right h2)
  obtain rfl : q = p := by omega
  have hlt := magnitude_lt_succ q
  have hmul : magnitude q * den < magnitude (q + 1) * den := Nat.mul_lt_mul_of_pos_right hlt hd
  rw [Nat.add_mul] at h3
  rcases h3 with ⟨_, h⟩ | ⟨h, _⟩ | ⟨h, _⟩
  · rw [h]; exact Nat.min_eq_left hp
  · exact absurd h (by omega)
  · exact absurd h (by omega)

/-- Where rounding overflows (R98): from the largest finite magnitude and half its last place on. -/
theorem roundMag_eq_inf {num den : Nat} (hd : 0 < den) :
    roundMag num den = infPattern ↔ (2 ^ 25 - 1) * 2 ^ 252 * den ≤ num := by
  obtain ⟨p, h1, h2, h3⟩ := roundMag_spec num hd
  have top : magnitude infPattern = 2 ^ 25 * 2 ^ 252 := by decide +kernel
  have last : magnitude (infPattern - 1) = (2 ^ 25 - 2) * 2 ^ 252 := by decide +kernel
  have hb := roundMag_between (h3.imp And.right (Or.imp And.right And.right))
  obtain hp | hp | hp : infPattern ≤ p ∨ p = infPattern - 1 ∨ p + 1 ≤ infPattern - 1 := by omega
  · have hm : 2 ^ 25 * 2 ^ 252 * den ≤ num :=
      le_trans (Nat.mul_le_mul_right den (top ▸ magnitude_le_iff.mpr hp)) h1
    have hr : roundMag num den = infPattern :=
      le_antisymm (roundMag_le num den) (by simpa [Nat.min_eq_right hp] using hb.1)
    simp only [hr, true_iff]
    exact le_trans (Nat.mul_le_mul_right den (by norm_num)) hm
  · subst hp
    have e : infPattern - 1 + 1 = infPattern := rfl
    have odd : (infPattern - 1) % 2 = 1 := rfl
    rw [e, last, top, show ((2 ^ 25 - 2) * 2 ^ 252 + 2 ^ 25 * 2 ^ 252) * den = 2 * ((2 ^ 25 - 1) * 2 ^ 252 * den) by ring,
      odd] at h3
    generalize (2 ^ 25 - 1) * 2 ^ 252 * den = bound at h3 ⊢
    have hne : min (infPattern - 1) infPattern ≠ infPattern := by decide
    rw [e] at h3
    rcases h3 with ⟨h, h'⟩ | ⟨h, h'⟩ | ⟨h, h'⟩ <;> rw [h']
    · exact ⟨fun hc => absurd hc hne, fun hc => by omega⟩
    · exact ⟨fun _ => by omega, fun _ => by decide⟩
    · exact ⟨fun _ => by omega, fun _ => by decide⟩
  · have hm : num < (2 ^ 25 - 2) * 2 ^ 252 * den :=
      lt_of_lt_of_le h2 (Nat.mul_le_mul_right den (last ▸ magnitude_le_iff.mpr hp))
    have hd' : (2 ^ 25 - 2) * 2 ^ 252 * den ≤ (2 ^ 25 - 1) * 2 ^ 252 * den := Nat.mul_le_mul_right den (by norm_num)
    have hr : roundMag num den < infPattern :=
      lt_of_le_of_lt (hb.2.trans ((Nat.min_le_left _ _).trans hp)) (by decide)
    exact ⟨fun hc => absurd hc hr.ne, fun hc => absurd (lt_of_lt_of_le hm hd') (Nat.not_lt.mpr hc)⟩

/-- Rounding keeps the order of quotients. -/
theorem roundMag_mono {n₁ d₁ n₂ d₂ : Nat} (h₁ : 0 < d₁) (h₂ : 0 < d₂) (h : n₁ * d₂ ≤ n₂ * d₁) :
    roundMag n₁ d₁ ≤ roundMag n₂ d₂ := by
  obtain ⟨p, p1, p2, p3⟩ := roundMag_spec n₁ h₁
  obtain ⟨q, q1, q2, q3⟩ := roundMag_spec n₂ h₂
  have hpq : p < q + 1 := by
    apply magnitude_lt_iff.mp
    apply Nat.lt_of_mul_lt_mul_right (a := d₁ * d₂)
    calc magnitude p * (d₁ * d₂) = magnitude p * d₁ * d₂ := by ring
      _ ≤ n₁ * d₂ := Nat.mul_le_mul_right _ p1
      _ ≤ n₂ * d₁ := h
      _ < magnitude (q + 1) * d₂ * d₁ := Nat.mul_lt_mul_of_pos_right q2 h₁
      _ = magnitude (q + 1) * (d₁ * d₂) := by ring
  rcases Nat.lt_or_ge p q with hlt | hge
  · have hp := (roundMag_between (p3.imp And.right (Or.imp And.right And.right))).2
    have hq := (roundMag_between (q3.imp And.right (Or.imp And.right And.right))).1
    exact hp.trans ((min_le_min_right _ hlt).trans hq)
  · obtain rfl : p = q := by omega
    have key : 2 * n₁ * d₂ ≤ 2 * n₂ * d₁ := by
      rw [Nat.mul_assoc, Nat.mul_assoc]; exact Nat.mul_le_mul_left 2 h
    generalize magnitude p + magnitude (p + 1) = M at p3 q3
    have c1 : M * d₁ < 2 * n₁ → M * d₂ < 2 * n₂ := fun hx => by
      apply Nat.lt_of_mul_lt_mul_right (a := d₁)
      calc M * d₂ * d₁ = M * d₁ * d₂ := by ring
        _ < 2 * n₁ * d₂ := Nat.mul_lt_mul_of_pos_right hx h₂
        _ ≤ 2 * n₂ * d₁ := key
    have c2 : M * d₁ ≤ 2 * n₁ → M * d₂ ≤ 2 * n₂ := fun hx => by
      apply Nat.le_of_mul_le_mul_right (c := d₁) _ h₁
      calc M * d₂ * d₁ = M * d₁ * d₂ := by ring
        _ ≤ 2 * n₁ * d₂ := Nat.mul_le_mul_right _ hx
        _ ≤ 2 * n₂ * d₁ := key
    clear h key p1 p2 q1 q2
    rcases p3 with ⟨a, e⟩ | ⟨a, e⟩ | ⟨a, e⟩ <;> rcases q3 with ⟨b, e'⟩ | ⟨b, e'⟩ | ⟨b, e'⟩ <;> rw [e, e']
    · exact min_le_min_right _ (Nat.le_succ _)
    · exact min_le_min_right _ (Nat.le_add_right _ _)
    · exact absurd (c1 a) (by omega)
    · exact absurd (c1 a) (by omega)
    · exact absurd (c2 a.ge) (by omega)
    · exact min_le_min_right _ (by omega)

/-! ### The primitives -/

theorem fadd_of_nan {a b : F32} (h : isNaN a = true ∨ isNaN b = true) : fadd a b = nan := by
  unfold fadd
  rw [if_pos (by simpa using h)]

/-- The sum of two finite values: the exact sum, rounded once. -/
theorem fadd_of_finite {a b : F32} (ha : finite a = true) (hb : finite b = true) :
    fadd a b = packF32 (if value a + value b = 0 then signBit a && signBit b else decide (value a + value b < 0))
      (roundMag (value a + value b).natAbs 1) := by
  obtain ⟨a1, a2⟩ := (finite_iff a).mp ha
  obtain ⟨b1, b2⟩ := (finite_iff b).mp hb
  simp [fadd, a1, a2, b1, b2]

/-- The product of two finite values: the exact product, rounded once. -/
theorem fmul_of_finite {a b : F32} (ha : finite a = true) (hb : finite b = true) :
    fmul a b = packF32 (signBit a != signBit b)
      (roundMag (magnitude (magPattern a) * magnitude (magPattern b)) (2 ^ 149)) := by
  obtain ⟨a1, a2⟩ := (finite_iff a).mp ha
  obtain ⟨b1, b2⟩ := (finite_iff b).mp hb
  simp [fmul, a1, a2, b1, b2]

/-- The quotient of two finite values, the divisor not zero: the exact quotient, rounded once. -/
theorem fdiv_of_finite {a b : F32} (ha : finite a = true) (hb : finite b = true) (h0 : isZero b = false) :
    fdiv a b = packF32 (signBit a != signBit b)
      (roundMag (magnitude (magPattern a) * 2 ^ 149) (magnitude (magPattern b))) := by
  obtain ⟨a1, a2⟩ := (finite_iff a).mp ha
  obtain ⟨b1, b2⟩ := (finite_iff b).mp hb
  simp [fdiv, a1, a2, b1, b2, h0]

/-! ### Comparisons: the order of the values is the order of the patterns -/

theorem value_nonneg {v : F32} (h : signBit v = false) : value v = magnitude (magPattern v) := by simp [value, h]

theorem value_neg {v : F32} (h : signBit v = true) : value v = -(magnitude (magPattern v) : Int) := by simp [value, h]

/-- `flt` on two values without a sign: the order of their patterns. -/
theorem flt_of_nonneg {a b : F32} (ha : signBit a = false) (hb : signBit b = false) :
    flt a b = (!isNaN a && !isNaN b && decide (magPattern a < magPattern b)) := by
  simp [flt, value_nonneg ha, value_nonneg hb, magnitude_lt_iff]

/-- `fle` on two values without a sign: the order of their patterns. -/
theorem fle_of_nonneg {a b : F32} (ha : signBit a = false) (hb : signBit b = false) :
    fle a b = (!isNaN a && !isNaN b && decide (magPattern a ≤ magPattern b)) := by
  simp [fle, value_nonneg ha, value_nonneg hb, magnitude_le_iff]

theorem fle_self {a : F32} (h : isNaN a = false) : fle a a = true := by simp [fle, h]

theorem isNaN_of_fle_left {a b : F32} (h : fle a b = true) : isNaN a = false := by
  simp [fle] at h; exact h.1.1

theorem isNaN_of_fle_right {a b : F32} (h : fle a b = true) : isNaN b = false := by
  simp [fle] at h; exact h.1.2

end Sys2Proof.Machine
end

