-- ==== Sys2Proof/Laws/State.lean ====
section
/-! SUPPORT. One lemma per state field per update, each true by `rfl`, so that no later proof unfolds a record update. -/

namespace Sys2Proof.Machine

variable (s : State)

/-! ### `respond`: a response -/

@[simp] theorem respond_initialised (st info : BitVec 8) (v : Word) :
    (respond st info v s).initialised = s.initialised :=
  rfl
@[simp] theorem respond_sweep (st info : BitVec 8) (v : Word) : (respond st info v s).sweep = s.sweep := rfl
@[simp] theorem respond_startFreq (st info : BitVec 8) (v : Word) :
    (respond st info v s).startFreq = s.startFreq :=
  rfl
@[simp] theorem respond_targetFreq (st info : BitVec 8) (v : Word) :
    (respond st info v s).targetFreq = s.targetFreq :=
  rfl
@[simp] theorem respond_currentFreq (st info : BitVec 8) (v : Word) :
    (respond st info v s).currentFreq = s.currentFreq :=
  rfl
@[simp] theorem respond_oscCount (st info : BitVec 8) (v : Word) : (respond st info v s).oscCount = s.oscCount := rfl
@[simp] theorem respond_lfoBaseFreq (st info : BitVec 8) (v : Word) :
    (respond st info v s).lfoBaseFreq = s.lfoBaseFreq :=
  rfl
@[simp] theorem respond_sampleRate (st info : BitVec 8) (v : Word) :
    (respond st info v s).sampleRate = s.sampleRate :=
  rfl
@[simp] theorem respond_lfoPhase (st info : BitVec 8) (v : Word) : (respond st info v s).lfoPhase = s.lfoPhase := rfl
@[simp] theorem respond_oscPhase (st info : BitVec 8) (v : Word) : (respond st info v s).oscPhase = s.oscPhase := rfl
@[simp] theorem respond_detuneOffset (st info : BitVec 8) (v : Word) :
    (respond st info v s).detuneOffset = s.detuneOffset :=
  rfl
@[simp] theorem respond_inputs (st info : BitVec 8) (v : Word) : (respond st info v s).inputs = s.inputs := rfl
@[simp] theorem respond_responses (st info : BitVec 8) (v : Word) :
    (respond st info v s).responses = s.responses ++ [responseOf st info v] :=
  rfl
@[simp] theorem respond_trace (st info : BitVec 8) (v : Word) : (respond st info v s).trace = s.trace := rfl
@[simp] theorem respond_nanDraws (st info : BitVec 8) (v : Word) : (respond st info v s).nanDraws = s.nanDraws := rfl

/-! ### `accept`: the response of an accepted command -/

@[simp] theorem accept_initialised (v : Word) : (accept v s).initialised = s.initialised := rfl
@[simp] theorem accept_sweep (v : Word) : (accept v s).sweep = s.sweep := rfl
@[simp] theorem accept_startFreq (v : Word) : (accept v s).startFreq = s.startFreq := rfl
@[simp] theorem accept_targetFreq (v : Word) : (accept v s).targetFreq = s.targetFreq := rfl
@[simp] theorem accept_currentFreq (v : Word) : (accept v s).currentFreq = s.currentFreq := rfl
@[simp] theorem accept_oscCount (v : Word) : (accept v s).oscCount = s.oscCount := rfl
@[simp] theorem accept_lfoBaseFreq (v : Word) : (accept v s).lfoBaseFreq = s.lfoBaseFreq := rfl
@[simp] theorem accept_sampleRate (v : Word) : (accept v s).sampleRate = s.sampleRate := rfl
@[simp] theorem accept_lfoPhase (v : Word) : (accept v s).lfoPhase = s.lfoPhase := rfl
@[simp] theorem accept_oscPhase (v : Word) : (accept v s).oscPhase = s.oscPhase := rfl
@[simp] theorem accept_detuneOffset (v : Word) : (accept v s).detuneOffset = s.detuneOffset := rfl
@[simp] theorem accept_inputs (v : Word) : (accept v s).inputs = s.inputs := rfl
@[simp] theorem accept_responses (v : Word) : (accept v s).responses = s.responses ++ [responseOf statusOk 0 v] := rfl
@[simp] theorem accept_trace (v : Word) : (accept v s).trace = s.trace := rfl
@[simp] theorem accept_nanDraws (v : Word) : (accept v s).nanDraws = s.nanDraws := rfl

/-! ### `raise`: a rejection (R217): the response port alone changes -/

@[simp] theorem raise_initialised (r : Rejection) (info : BitVec 8) :
    (raise r info s).initialised = s.initialised :=
  rfl
@[simp] theorem raise_sweep (r : Rejection) (info : BitVec 8) : (raise r info s).sweep = s.sweep := rfl
@[simp] theorem raise_startFreq (r : Rejection) (info : BitVec 8) : (raise r info s).startFreq = s.startFreq := rfl
@[simp] theorem raise_targetFreq (r : Rejection) (info : BitVec 8) : (raise r info s).targetFreq = s.targetFreq := rfl
@[simp] theorem raise_currentFreq (r : Rejection) (info : BitVec 8) :
    (raise r info s).currentFreq = s.currentFreq :=
  rfl
@[simp] theorem raise_oscCount (r : Rejection) (info : BitVec 8) : (raise r info s).oscCount = s.oscCount := rfl
@[simp] theorem raise_lfoBaseFreq (r : Rejection) (info : BitVec 8) :
    (raise r info s).lfoBaseFreq = s.lfoBaseFreq :=
  rfl
@[simp] theorem raise_sampleRate (r : Rejection) (info : BitVec 8) : (raise r info s).sampleRate = s.sampleRate := rfl
@[simp] theorem raise_lfoPhase (r : Rejection) (info : BitVec 8) : (raise r info s).lfoPhase = s.lfoPhase := rfl
@[simp] theorem raise_oscPhase (r : Rejection) (info : BitVec 8) : (raise r info s).oscPhase = s.oscPhase := rfl
@[simp] theorem raise_detuneOffset (r : Rejection) (info : BitVec 8) :
    (raise r info s).detuneOffset = s.detuneOffset :=
  rfl
@[simp] theorem raise_inputs (r : Rejection) (info : BitVec 8) : (raise r info s).inputs = s.inputs := rfl
@[simp] theorem raise_responses (r : Rejection) (info : BitVec 8) :
    (raise r info s).responses = s.responses ++ [responseOf (rejectionCode r) info 0] :=
  rfl
@[simp] theorem raise_trace (r : Rejection) (info : BitVec 8) : (raise r info s).trace = s.trace := rfl
@[simp] theorem raise_nanDraws (r : Rejection) (info : BitVec 8) : (raise r info s).nanDraws = s.nanDraws := rfl

/-! ### `emitTrace`: a trace record: the trace port alone changes -/

@[simp] theorem emitTrace_initialised (r : TraceRecord) : (emitTrace r s).initialised = s.initialised := rfl
@[simp] theorem emitTrace_sweep (r : TraceRecord) : (emitTrace r s).sweep = s.sweep := rfl
@[simp] theorem emitTrace_startFreq (r : TraceRecord) : (emitTrace r s).startFreq = s.startFreq := rfl
@[simp] theorem emitTrace_targetFreq (r : TraceRecord) : (emitTrace r s).targetFreq = s.targetFreq := rfl
@[simp] theorem emitTrace_currentFreq (r : TraceRecord) : (emitTrace r s).currentFreq = s.currentFreq := rfl
@[simp] theorem emitTrace_oscCount (r : TraceRecord) : (emitTrace r s).oscCount = s.oscCount := rfl
@[simp] theorem emitTrace_lfoBaseFreq (r : TraceRecord) : (emitTrace r s).lfoBaseFreq = s.lfoBaseFreq := rfl
@[simp] theorem emitTrace_sampleRate (r : TraceRecord) : (emitTrace r s).sampleRate = s.sampleRate := rfl
@[simp] theorem emitTrace_lfoPhase (r : TraceRecord) : (emitTrace r s).lfoPhase = s.lfoPhase := rfl
@[simp] theorem emitTrace_oscPhase (r : TraceRecord) : (emitTrace r s).oscPhase = s.oscPhase := rfl
@[simp] theorem emitTrace_detuneOffset (r : TraceRecord) : (emitTrace r s).detuneOffset = s.detuneOffset := rfl
@[simp] theorem emitTrace_inputs (r : TraceRecord) : (emitTrace r s).inputs = s.inputs := rfl
@[simp] theorem emitTrace_responses (r : TraceRecord) : (emitTrace r s).responses = s.responses := rfl
@[simp] theorem emitTrace_trace (r : TraceRecord) : (emitTrace r s).trace = s.trace ++ [r] := rfl
@[simp] theorem emitTrace_nanDraws (r : TraceRecord) : (emitTrace r s).nanDraws = s.nanDraws := rfl

/-! ### `retarget`: SETT (R156) -/

@[simp] theorem retarget_initialised (f : F32) : (retarget f s).initialised = s.initialised := rfl
@[simp] theorem retarget_sweep (f : F32) : (retarget f s).sweep = .pending := rfl
@[simp] theorem retarget_startFreq (f : F32) : (retarget f s).startFreq = s.currentFreq := rfl
@[simp] theorem retarget_targetFreq (f : F32) : (retarget f s).targetFreq = f := rfl
@[simp] theorem retarget_currentFreq (f : F32) : (retarget f s).currentFreq = s.currentFreq := rfl
@[simp] theorem retarget_oscCount (f : F32) : (retarget f s).oscCount = s.oscCount := rfl
@[simp] theorem retarget_lfoBaseFreq (f : F32) : (retarget f s).lfoBaseFreq = s.lfoBaseFreq := rfl
@[simp] theorem retarget_sampleRate (f : F32) : (retarget f s).sampleRate = s.sampleRate := rfl
@[simp] theorem retarget_lfoPhase (f : F32) : (retarget f s).lfoPhase = s.lfoPhase := rfl
@[simp] theorem retarget_oscPhase (f : F32) : (retarget f s).oscPhase = s.oscPhase := rfl
@[simp] theorem retarget_detuneOffset (f : F32) : (retarget f s).detuneOffset = s.detuneOffset := rfl
@[simp] theorem retarget_inputs (f : F32) : (retarget f s).inputs = s.inputs := rfl
@[simp] theorem retarget_responses (f : F32) : (retarget f s).responses = s.responses := rfl
@[simp] theorem retarget_trace (f : F32) : (retarget f s).trace = s.trace := rfl
@[simp] theorem retarget_nanDraws (f : F32) : (retarget f s).nanDraws = s.nanDraws := rfl

/-! ### `restartFrom`: SETS (R160) -/

@[simp] theorem restartFrom_initialised (f : F32) : (restartFrom f s).initialised = s.initialised := rfl
@[simp] theorem restartFrom_sweep (f : F32) : (restartFrom f s).sweep = .pending := rfl
@[simp] theorem restartFrom_startFreq (f : F32) : (restartFrom f s).startFreq = f := rfl
@[simp] theorem restartFrom_targetFreq (f : F32) : (restartFrom f s).targetFreq = s.targetFreq := rfl
@[simp] theorem restartFrom_currentFreq (f : F32) : (restartFrom f s).currentFreq = f := rfl
@[simp] theorem restartFrom_oscCount (f : F32) : (restartFrom f s).oscCount = s.oscCount := rfl
@[simp] theorem restartFrom_lfoBaseFreq (f : F32) : (restartFrom f s).lfoBaseFreq = s.lfoBaseFreq := rfl
@[simp] theorem restartFrom_sampleRate (f : F32) : (restartFrom f s).sampleRate = s.sampleRate := rfl
@[simp] theorem restartFrom_lfoPhase (f : F32) : (restartFrom f s).lfoPhase = s.lfoPhase := rfl
@[simp] theorem restartFrom_oscPhase (f : F32) : (restartFrom f s).oscPhase = s.oscPhase := rfl
@[simp] theorem restartFrom_detuneOffset (f : F32) : (restartFrom f s).detuneOffset = s.detuneOffset := rfl
@[simp] theorem restartFrom_inputs (f : F32) : (restartFrom f s).inputs = s.inputs := rfl
@[simp] theorem restartFrom_responses (f : F32) : (restartFrom f s).responses = s.responses := rfl
@[simp] theorem restartFrom_trace (f : F32) : (restartFrom f s).trace = s.trace := rfl
@[simp] theorem restartFrom_nanDraws (f : F32) : (restartFrom f s).nanDraws = s.nanDraws := rfl

/-! ### `redetune`: DETUNE (R165) -/

@[simp] theorem redetune_initialised (d : F32) : (redetune d s).initialised = s.initialised := rfl
@[simp] theorem redetune_sweep (d : F32) : (redetune d s).sweep = s.sweep := rfl
@[simp] theorem redetune_startFreq (d : F32) : (redetune d s).startFreq = s.startFreq := rfl
@[simp] theorem redetune_targetFreq (d : F32) : (redetune d s).targetFreq = s.targetFreq := rfl
@[simp] theorem redetune_currentFreq (d : F32) : (redetune d s).currentFreq = s.currentFreq := rfl
@[simp] theorem redetune_oscCount (d : F32) : (redetune d s).oscCount = s.oscCount := rfl
@[simp] theorem redetune_lfoBaseFreq (d : F32) : (redetune d s).lfoBaseFreq = s.lfoBaseFreq := rfl
@[simp] theorem redetune_sampleRate (d : F32) : (redetune d s).sampleRate = s.sampleRate := rfl
@[simp] theorem redetune_lfoPhase (d : F32) : (redetune d s).lfoPhase = s.lfoPhase := rfl
@[simp] theorem redetune_oscPhase (d : F32) : (redetune d s).oscPhase = s.oscPhase := rfl
@[simp] theorem redetune_detuneOffset (d : F32) :
    (redetune d s).detuneOffset = detuneAll s.oscCount.toNat d s.detuneOffset :=
  rfl
@[simp] theorem redetune_inputs (d : F32) : (redetune d s).inputs = s.inputs := rfl
@[simp] theorem redetune_responses (d : F32) : (redetune d s).responses = s.responses := rfl
@[simp] theorem redetune_trace (d : F32) : (redetune d s).trace = s.trace := rfl
@[simp] theorem redetune_nanDraws (d : F32) : (redetune d s).nanDraws = s.nanDraws := rfl

/-! ### `configureVoice`: INIT (R44) -/

@[simp] theorem configureVoice_initialised (n : Word) (fstart fs flfo d : F32) :
    (configureVoice n fstart fs flfo d s).initialised = true :=
  rfl
@[simp] theorem configureVoice_sweep (n : Word) (fstart fs flfo d : F32) :
    (configureVoice n fstart fs flfo d s).sweep = .pending :=
  rfl
@[simp] theorem configureVoice_startFreq (n : Word) (fstart fs flfo d : F32) :
    (configureVoice n fstart fs flfo d s).startFreq = fstart :=
  rfl
@[simp] theorem configureVoice_targetFreq (n : Word) (fstart fs flfo d : F32) :
    (configureVoice n fstart fs flfo d s).targetFreq = fstart :=
  rfl
@[simp] theorem configureVoice_currentFreq (n : Word) (fstart fs flfo d : F32) :
    (configureVoice n fstart fs flfo d s).currentFreq = fstart :=
  rfl
@[simp] theorem configureVoice_oscCount (n : Word) (fstart fs flfo d : F32) :
    (configureVoice n fstart fs flfo d s).oscCount = n.setWidth 5 :=
  rfl
@[simp] theorem configureVoice_lfoBaseFreq (n : Word) (fstart fs flfo d : F32) :
    (configureVoice n fstart fs flfo d s).lfoBaseFreq = flfo :=
  rfl
@[simp] theorem configureVoice_sampleRate (n : Word) (fstart fs flfo d : F32) :
    (configureVoice n fstart fs flfo d s).sampleRate = fs :=
  rfl
@[simp] theorem configureVoice_lfoPhase (n : Word) (fstart fs flfo d : F32) :
    (configureVoice n fstart fs flfo d s).lfoPhase = f0 :=
  rfl
@[simp] theorem configureVoice_oscPhase (n : Word) (fstart fs flfo d : F32) :
    (configureVoice n fstart fs flfo d s).oscPhase = Vector.replicate 16 f0 :=
  rfl
@[simp] theorem configureVoice_detuneOffset (n : Word) (fstart fs flfo d : F32) :
    (configureVoice n fstart fs flfo d s).detuneOffset = detuneAll n.toNat d (Vector.replicate 16 f0) :=
  rfl
@[simp] theorem configureVoice_inputs (n : Word) (fstart fs flfo d : F32) :
    (configureVoice n fstart fs flfo d s).inputs = s.inputs :=
  rfl
@[simp] theorem configureVoice_responses (n : Word) (fstart fs flfo d : F32) :
    (configureVoice n fstart fs flfo d s).responses = s.responses :=
  rfl
@[simp] theorem configureVoice_trace (n : Word) (fstart fs flfo d : F32) :
    (configureVoice n fstart fs flfo d s).trace = s.trace :=
  rfl
@[simp] theorem configureVoice_nanDraws (n : Word) (fstart fs flfo d : F32) :
    (configureVoice n fstart fs flfo d s).nanDraws = s.nanDraws :=
  rfl

/-! ### `advanceVoice`: the registers of an accepted PROC (R194) -/

@[simp] theorem advanceVoice_initialised (m c1 c2 : F32) : (advanceVoice m c1 c2 s).initialised = s.initialised := rfl
@[simp] theorem advanceVoice_sweep (m c1 c2 : F32) : (advanceVoice m c1 c2 s).sweep = (sweepOf s m c1 c2).sweep := rfl
@[simp] theorem advanceVoice_startFreq (m c1 c2 : F32) : (advanceVoice m c1 c2 s).startFreq = s.startFreq := rfl
@[simp] theorem advanceVoice_targetFreq (m c1 c2 : F32) : (advanceVoice m c1 c2 s).targetFreq = s.targetFreq := rfl
@[simp] theorem advanceVoice_currentFreq (m c1 c2 : F32) :
    (advanceVoice m c1 c2 s).currentFreq = (sweepOf s m c1 c2).current :=
  rfl
@[simp] theorem advanceVoice_oscCount (m c1 c2 : F32) : (advanceVoice m c1 c2 s).oscCount = s.oscCount := rfl
@[simp] theorem advanceVoice_lfoBaseFreq (m c1 c2 : F32) : (advanceVoice m c1 c2 s).lfoBaseFreq = s.lfoBaseFreq := rfl
@[simp] theorem advanceVoice_sampleRate (m c1 c2 : F32) : (advanceVoice m c1 c2 s).sampleRate = s.sampleRate := rfl
@[simp] theorem advanceVoice_lfoPhase (m c1 c2 : F32) : (advanceVoice m c1 c2 s).lfoPhase = (lfoStep s m).phase := rfl
@[simp] theorem advanceVoice_oscPhase (m c1 c2 : F32) :
    (advanceVoice m c1 c2 s).oscPhase = bankAdvance s.oscCount.toNat (sweepOf s m c1 c2).current s.sampleRate s.detuneOffset s.oscPhase :=
  rfl
@[simp] theorem advanceVoice_detuneOffset (m c1 c2 : F32) :
    (advanceVoice m c1 c2 s).detuneOffset = s.detuneOffset :=
  rfl
@[simp] theorem advanceVoice_inputs (m c1 c2 : F32) : (advanceVoice m c1 c2 s).inputs = s.inputs := rfl
@[simp] theorem advanceVoice_responses (m c1 c2 : F32) : (advanceVoice m c1 c2 s).responses = s.responses := rfl
@[simp] theorem advanceVoice_trace (m c1 c2 : F32) : (advanceVoice m c1 c2 s).trace = s.trace := rfl
@[simp] theorem advanceVoice_nanDraws (m c1 c2 : F32) : (advanceVoice m c1 c2 s).nanDraws = s.nanDraws + 4 := rfl

/-! ### `produceSample`: a whole accepted PROC -/

@[simp] theorem produceSample_initialised (wave : F32 → F32) (m c1 c2 : F32) :
    (produceSample wave m c1 c2 s).initialised = s.initialised :=
  rfl
@[simp] theorem produceSample_sweep (wave : F32 → F32) (m c1 c2 : F32) :
    (produceSample wave m c1 c2 s).sweep = (sweepOf s m c1 c2).sweep :=
  rfl
@[simp] theorem produceSample_startFreq (wave : F32 → F32) (m c1 c2 : F32) :
    (produceSample wave m c1 c2 s).startFreq = s.startFreq :=
  rfl
@[simp] theorem produceSample_targetFreq (wave : F32 → F32) (m c1 c2 : F32) :
    (produceSample wave m c1 c2 s).targetFreq = s.targetFreq :=
  rfl
@[simp] theorem produceSample_currentFreq (wave : F32 → F32) (m c1 c2 : F32) :
    (produceSample wave m c1 c2 s).currentFreq = (sweepOf s m c1 c2).current :=
  rfl
@[simp] theorem produceSample_oscCount (wave : F32 → F32) (m c1 c2 : F32) :
    (produceSample wave m c1 c2 s).oscCount = s.oscCount :=
  rfl
@[simp] theorem produceSample_lfoBaseFreq (wave : F32 → F32) (m c1 c2 : F32) :
    (produceSample wave m c1 c2 s).lfoBaseFreq = s.lfoBaseFreq :=
  rfl
@[simp] theorem produceSample_sampleRate (wave : F32 → F32) (m c1 c2 : F32) :
    (produceSample wave m c1 c2 s).sampleRate = s.sampleRate :=
  rfl
@[simp] theorem produceSample_lfoPhase (wave : F32 → F32) (m c1 c2 : F32) :
    (produceSample wave m c1 c2 s).lfoPhase = (lfoStep s m).phase :=
  rfl
@[simp] theorem produceSample_oscPhase (wave : F32 → F32) (m c1 c2 : F32) :
    (produceSample wave m c1 c2 s).oscPhase = bankAdvance s.oscCount.toNat (sweepOf s m c1 c2).current s.sampleRate s.detuneOffset s.oscPhase :=
  rfl
@[simp] theorem produceSample_detuneOffset (wave : F32 → F32) (m c1 c2 : F32) :
    (produceSample wave m c1 c2 s).detuneOffset = s.detuneOffset :=
  rfl
@[simp] theorem produceSample_inputs (wave : F32 → F32) (m c1 c2 : F32) :
    (produceSample wave m c1 c2 s).inputs = s.inputs :=
  rfl
@[simp] theorem produceSample_responses (wave : F32 → F32) (m c1 c2 : F32) :
    (produceSample wave m c1 c2 s).responses = s.responses ++ [responseOf statusOk 0 (outputOf wave s)] :=
  rfl
@[simp] theorem produceSample_trace (wave : F32 → F32) (m c1 c2 : F32) :
    (produceSample wave m c1 c2 s).trace = s.trace ++ [traceOf wave m c1 c2 s] :=
  rfl
@[simp] theorem produceSample_nanDraws (wave : F32 → F32) (m c1 c2 : F32) :
    (produceSample wave m c1 c2 s).nanDraws = s.nanDraws + 4 :=
  rfl

/-! ### `applyReset`: reset (R241, R242) -/

@[simp] theorem applyReset_initialised (rest : List InputEvent) : (applyReset rest s).initialised = false := rfl
@[simp] theorem applyReset_sweep (rest : List InputEvent) : (applyReset rest s).sweep = .pending := rfl
@[simp] theorem applyReset_startFreq (rest : List InputEvent) : (applyReset rest s).startFreq = 0 := rfl
@[simp] theorem applyReset_targetFreq (rest : List InputEvent) : (applyReset rest s).targetFreq = 0 := rfl
@[simp] theorem applyReset_currentFreq (rest : List InputEvent) : (applyReset rest s).currentFreq = 0 := rfl
@[simp] theorem applyReset_oscCount (rest : List InputEvent) : (applyReset rest s).oscCount = 0 := rfl
@[simp] theorem applyReset_lfoBaseFreq (rest : List InputEvent) : (applyReset rest s).lfoBaseFreq = 0 := rfl
@[simp] theorem applyReset_sampleRate (rest : List InputEvent) : (applyReset rest s).sampleRate = 0 := rfl
@[simp] theorem applyReset_lfoPhase (rest : List InputEvent) : (applyReset rest s).lfoPhase = 0 := rfl
@[simp] theorem applyReset_oscPhase (rest : List InputEvent) :
    (applyReset rest s).oscPhase = Vector.replicate 16 0 :=
  rfl
@[simp] theorem applyReset_detuneOffset (rest : List InputEvent) :
    (applyReset rest s).detuneOffset = Vector.replicate 16 0 :=
  rfl
@[simp] theorem applyReset_inputs (rest : List InputEvent) : (applyReset rest s).inputs = rest := rfl
@[simp] theorem applyReset_responses (rest : List InputEvent) : (applyReset rest s).responses = [] := rfl
@[simp] theorem applyReset_trace (rest : List InputEvent) : (applyReset rest s).trace = [] := rfl
@[simp] theorem applyReset_nanDraws (rest : List InputEvent) : (applyReset rest s).nanDraws = s.nanDraws := rfl

end Sys2Proof.Machine
end

