-- ==== Sys2Proof/Laws/Ops.lean ====
section
/-! SUPPORT. What each shared operation and each command can do, said once: the check of a command, the wrap of a phase, a
clamp, the sweep steps, the fields of a response, and `exec_cases`, the one inversion of `exec`. -/

namespace Sys2Proof.Machine

/-! ### Checks -/

@[simp] theorem whenInitialised_of_true {s : State} {k : State → State} (h : s.initialised = true) :
    whenInitialised s k = k s := by simp [whenInitialised, h]

@[simp] theorem whenInitialised_of_false {s : State} {k : State → State} (h : s.initialised = false) :
    whenInitialised s k = raise .notInitialised 0 s := by simp [whenInitialised, h]

@[simp] theorem whenValid_true (number : BitVec 8) (s : State) (k : State → State) : whenValid true number s k = k s := rfl

@[simp] theorem whenValid_false (number : BitVec 8) (s : State) (k : State → State) :
    whenValid false number s k = raise .invalidParameter number s := rfl

/-! ### Responses -/

@[simp] theorem responseOf_r1 (st info : BitVec 8) (v : Word) : (responseOf st info v).r1 = v := rfl

@[simp] theorem responseStatus_responseOf (st info : BitVec 8) (v : Word) :
    responseStatus (responseOf st info v) = st := by
  ext i hi
  simp [responseStatus, responseOf, show i < 32 by omega, hi]

@[simp] theorem responseInfo_responseOf (st info : BitVec 8) (v : Word) :
    responseInfo (responseOf st info v) = info := by
  ext i hi
  simp [responseInfo, responseOf, show 8 + i < 32 by omega, BitVec.getLsbD_eq_getElem hi]

theorem rejectionCode_ne_ok (r : Rejection) : rejectionCode r ≠ statusOk := by
  cases r <;> decide

/-! ### Status-register indices -/

/-- An index names a location exactly when it is a defined one (R56, R72). -/
theorem statusRegOf_eq_none (idx : BitVec 8) : statusRegOf idx = none ↔ definedIndex idx = false := by
  revert idx
  decide

/-- Only index zero names STATUS. -/
theorem statusRegOf_eq_status (idx : BitVec 8) : statusRegOf idx = some .status ↔ idx = 0 := by
  revert idx
  decide

/-! ### Phases, clamps and the sweep -/

/-- The wrap yields a value the test of R128 admits, or `+0.0`. -/
theorem wrapPhase_cases (x : F32) :
    (inUnit (fsub x (ffloor x)) = true ∧ wrapPhase x = fsub x (ffloor x)) ∨
      (inUnit (fsub x (ffloor x)) = false ∧ wrapPhase x = f0) := by
  unfold wrapPhase
  cases h : inUnit (fsub x (ffloor x)) <;> simp [h]

/-- A value inside the range is not changed by the clamp. -/
theorem rangeConstrain_of_contains {r : Range} {v : F32} (h : rangeContains r v = true) : rangeConstrain r v = v := by
  simp only [rangeContains, fle, Bool.and_eq_true, Bool.not_eq_true', decide_eq_true_eq] at h
  obtain ⟨⟨_, h1⟩, ⟨_, h2⟩⟩ := h
  unfold rangeConstrain fgt flt
  rw [if_neg (by simp; intros; omega), if_neg (by simp; intros; omega)]

/-- What does not converge lies in the window. -/
theorem contains_of_not_converged {start target cand : F32} (h : converged start target cand = false) :
    rangeContains (rangeNew start target) cand = true := by
  simp [converged] at h
  exact h.2

/-- Everything steps 5 to 8 can do (R198). -/
theorem sweepStep_cases (draw : Nat) (x : SweepState) (start target sh : F32) :
    (x = .atTarget ∧ sweepStep draw x start target sh = ⟨.atTarget, target, target⟩) ∨
      (x ≠ .atTarget ∧ converged start target (candidate start target sh) = true ∧
        sweepStep draw x start target sh = ⟨.atTarget, target, portBits draw (candidate start target sh)⟩) ∨
      (x ≠ .atTarget ∧ converged start target (candidate start target sh) = false ∧
        sweepStep draw x start target sh =
          ⟨.inTransit, candidate start target sh, portBits draw (candidate start target sh)⟩) := by
  cases x with
  | atTarget => exact .inl ⟨rfl, rfl⟩
  | pending | inTransit =>
    cases h : converged start target (candidate start target sh) with
    | true => exact .inr (.inl ⟨by decide, rfl, by simp [sweepStep, h]⟩)
    | false =>
      refine .inr (.inr ⟨by decide, rfl, ?_⟩)
      simp [sweepStep, h, rangeConstrain_of_contains (contains_of_not_converged h)]

/-! ### Commands -/

/-- A command rejected, with its reason (R218). -/
inductive Rejects : Instr → State → Rejection → BitVec 8 → Prop where
  | init {n fstart fs flfo d s number} (h : initOffence n fstart fs flfo d = some number) :
      Rejects (.init n fstart fs flfo d) s .invalidParameter number
  | settBefore {f s} (h : s.initialised = false) : Rejects (.sett f) s .notInitialised 0
  | sett {f s} (h : s.initialised = true) (hf : frequencyOk f = false) : Rejects (.sett f) s .invalidParameter 1
  | setsBefore {f s} (h : s.initialised = false) : Rejects (.sets f) s .notInitialised 0
  | sets {f s} (h : s.initialised = true) (hf : frequencyOk f = false) : Rejects (.sets f) s .invalidParameter 1
  | detuneBefore {d s} (h : s.initialised = false) : Rejects (.detune d) s .notInitialised 0
  | detune {d s} (h : s.initialised = true) (hd : detuneOk d = false) : Rejects (.detune d) s .invalidParameter 1
  | procBefore {m c1 c2 s} (h : s.initialised = false) : Rejects (.proc m c1 c2) s .notInitialised 0
  | proc {m c1 c2 s} (h : s.initialised = true) (hm : frequencyOk m = false) :
      Rejects (.proc m c1 c2) s .invalidParameter 1
  | rdsrReserved {idx s} (h : statusRegOf idx = none) : Rejects (.rdsr idx) s .illegalCommand 0
  | rdsrBefore {idx s r} (h : s.initialised = false) (hr : statusRegOf idx = some r) (h0 : r ≠ .status) :
      Rejects (.rdsr idx) s .notInitialised 0
  | isatBefore {s} (h : s.initialised = false) : Rejects .isat s .notInitialised 0

/-- A command accepted: the value of its response, and the state it leaves before the response. -/
inductive Accepts : Instr → State → Word → State → Prop where
  | init {n fstart fs flfo d s} (h : initOffence n fstart fs flfo d = none) :
      Accepts (.init n fstart fs flfo d) s 0 (configureVoice n fstart fs flfo d s)
  | sett {f s} (h : s.initialised = true) (hf : frequencyOk f = true) : Accepts (.sett f) s 0 (retarget f s)
  | sets {f s} (h : s.initialised = true) (hf : frequencyOk f = true) : Accepts (.sets f) s 0 (restartFrom f s)
  | detune {d s} (h : s.initialised = true) (hd : detuneOk d = true) : Accepts (.detune d) s 0 (redetune d s)
  | proc {m c1 c2 s} (h : s.initialised = true) (hm : frequencyOk m = true) :
      Accepts (.proc m c1 c2) s (outputOf oscWave s) (emitTrace (traceOf oscWave m c1 c2 s) (advanceVoice m c1 c2 s))
  | status {idx s} (hr : statusRegOf idx = some .status) : Accepts (.rdsr idx) s (srRead .status s) s
  | rdsr {idx s r} (h : s.initialised = true) (hr : statusRegOf idx = some r) : Accepts (.rdsr idx) s (srRead r s) s
  | isat {s} (h : s.initialised = true) : Accepts .isat s (if s.sweep = .atTarget then 1 else 0) s

/-- The one inversion of `exec`: it always answers a next state, which is that of a rejection or of an accepted command. -/
theorem exec_cases (i : Instr) (s : State) :
    (∃ r number, Rejects i s r number ∧ exec i s = .next (raise r number s)) ∨
      (∃ v t, Accepts i s v t ∧ exec i s = .next (accept v t)) := by
  cases hs : s.initialised <;> cases i with
  | init n fstart fs flfo d =>
    cases h : initOffence n fstart fs flfo d with
    | some number => exact .inl ⟨_, _, .init h, by simp [exec, execInit, h]⟩
    | none => exact .inr ⟨_, _, .init h, by simp [exec, execInit, h]⟩
  | sett f =>
    first
    | exact .inl ⟨_, _, .settBefore hs, by simp [exec, execSett, hs]⟩
    | cases h : frequencyOk f with
      | false => exact .inl ⟨_, _, .sett hs h, by simp [exec, execSett, hs, h]⟩
      | true => exact .inr ⟨_, _, .sett hs h, by simp [exec, execSett, hs, h]⟩
  | sets f =>
    first
    | exact .inl ⟨_, _, .setsBefore hs, by simp [exec, execSets, hs]⟩
    | cases h : frequencyOk f with
      | false => exact .inl ⟨_, _, .sets hs h, by simp [exec, execSets, hs, h]⟩
      | true => exact .inr ⟨_, _, .sets hs h, by simp [exec, execSets, hs, h]⟩
  | detune d =>
    first
    | exact .inl ⟨_, _, .detuneBefore hs, by simp [exec, execDetune, hs]⟩
    | cases h : detuneOk d with
      | false => exact .inl ⟨_, _, .detune hs h, by simp [exec, execDetune, hs, h]⟩
      | true => exact .inr ⟨_, _, .detune hs h, by simp [exec, execDetune, hs, h]⟩
  | proc m c1 c2 =>
    first
    | exact .inl ⟨_, _, .procBefore hs, by simp [exec, execProc, hs]⟩
    | cases h : frequencyOk m with
      | false => exact .inl ⟨_, _, .proc hs h, by simp [exec, execProc, hs, h]⟩
      | true => exact .inr ⟨_, _, .proc hs h, by simp [exec, execProc, hs, h, produceSample]⟩
  | rdsr idx =>
    cases hr : statusRegOf idx with
    | none => exact .inl ⟨_, _, .rdsrReserved hr, by simp [exec, execRdsr, hr]⟩
    | some r =>
      by_cases h0 : r = .status
      · subst h0
        exact .inr ⟨_, _, .status hr, by simp [exec, execRdsr, hr]⟩
      · first
        | exact .inl ⟨_, _, .rdsrBefore hs hr h0, by cases r <;> simp_all [exec, execRdsr]⟩
        | exact .inr ⟨_, _, .rdsr hs hr, by cases r <;> simp_all [exec, execRdsr]⟩
  | isat =>
    first
    | exact .inl ⟨_, _, .isatBefore hs, by simp [exec, execIsat, hs]⟩
    | exact .inr ⟨_, _, .isat hs, by simp [exec, execIsat, hs]⟩

/-- `exec` reads and writes nothing of the inputs that wait at the port. -/
theorem accepts_inputs {i : Instr} {s t : State} {v : Word} (h : Accepts i s v t) : t.inputs = s.inputs := by
  cases h <;> rfl

/-- What a command leaves before its response has the responses that were on the port. -/
theorem accepts_responses {i : Instr} {s t : State} {v : Word} (h : Accepts i s v t) : t.responses = s.responses := by
  cases h <;> rfl

end Sys2Proof.Machine
end

