-- ==== Sys2Proof/Laws/PerInstr.lean ====
section
/-! SUPPORT. What is true of every command as syntax, said once per constructor: its words are as many as its header says
(spec rule R70), and its header selects the row of the opcode map that names it (R74). -/

namespace Sys2Proof.Laws.EncodedLength

/-- R70: a well-formed command has the length its header word alone announces. -/
def Statement (i : Instr) : Prop :=
  (encode i).length = commandLength i ∧ (WellFormed i → headerLength ((encode i).headD 0) = commandLength i)

theorem init (n : Word) (fstart fs flfo d : F32) : Statement (.init n fstart fs flfo d) :=
  ⟨rfl, fun _ => by simp [encode, headerLength, selectRow_init, commandLength]⟩
theorem sett (f : F32) : Statement (.sett f) := ⟨rfl, fun _ => by simp [encode, headerLength, selectRow_sett, commandLength]⟩
theorem sets (f : F32) : Statement (.sets f) := ⟨rfl, fun _ => by simp [encode, headerLength, selectRow_sets, commandLength]⟩
theorem detune (d : F32) : Statement (.detune d) := ⟨rfl, fun _ => by simp [encode, headerLength, selectRow_detune, commandLength]⟩
theorem proc (m c1 c2 : F32) : Statement (.proc m c1 c2) :=
  ⟨rfl, fun _ => by simp [encode, headerLength, selectRow_proc, commandLength]⟩
theorem rdsr (idx : BitVec 8) : Statement (.rdsr idx) :=
  ⟨rfl, fun h => by simp [encode, headerLength, selectRow_rdsr idx h, commandLength]⟩
theorem isat : Statement .isat := ⟨rfl, fun _ => by simp [encode, headerLength, selectRow_isat, commandLength]⟩

end Sys2Proof.Laws.EncodedLength
end

