-- ==== Sys2Proof/Laws/Port.lean ====
section
/-! SUPPORT. What the command port and one step can do, said once: the words before a reset, the inversion `step_cases`, and
the slots of the two register files after an update. -/

namespace Sys2Proof.Machine

/-! ### The inputs -/

@[simp] theorem presentWords_nil : presentWords [] = [] := rfl

@[simp] theorem presentWords_cons (w : Word) (ws : List Word) : presentWords (w :: ws) = .word w :: presentWords ws := rfl

@[simp] theorem presentWords_append (us ws : List Word) : presentWords (us ++ ws) = presentWords us ++ presentWords ws :=
  List.map_append

@[simp] theorem presentWords_length (ws : List Word) : (presentWords ws).length = ws.length := List.length_map _

@[simp] theorem wordsBeforeReset_presentWords (ws : List Word) (rest : List InputEvent) :
    wordsBeforeReset (presentWords ws ++ rest) = ws ++ wordsBeforeReset rest := by
  induction ws with
  | nil => rfl
  | cons w ws ih => simp [wordsBeforeReset, ih]

@[simp] theorem afterReset_presentWords (ws : List Word) (rest : List InputEvent) :
    afterReset (presentWords ws ++ rest) = afterReset rest := by
  induction ws with
  | nil => rfl
  | cons w ws ih => simp [afterReset, ih]

/-! ### One step -/

/-- Everything one step can do: execute a whole command, reject an illegal header, be reset, or wait. -/
theorem step_cases (s : State) :
    (∃ i rest, decode (wordsBeforeReset s.inputs) = .command i rest ∧
        step s = exec i { s with inputs := s.inputs.drop (commandLength i) }) ∨
      (∃ why rest, decode (wordsBeforeReset s.inputs) = .illegal why rest ∧
        step s = .next (raise .illegalCommand 0 { s with inputs := s.inputs.drop 1 })) ∨
      (∃ following, decode (wordsBeforeReset s.inputs) = .incomplete ∧ afterReset s.inputs = some following ∧
        step s = .next (applyReset following s)) ∨
      (decode (wordsBeforeReset s.inputs) = .incomplete ∧ afterReset s.inputs = none ∧ step s = .next s) := by
  cases hd : decode (wordsBeforeReset s.inputs) with
  | command i rest => exact .inl ⟨i, rest, rfl, by simp [step, fetch, hd]⟩
  | illegal why rest => exact .inr (.inl ⟨why, rest, rfl, by simp [step, fetch, hd]⟩)
  | incomplete =>
    cases hr : afterReset s.inputs with
    | some following => exact .inr (.inr (.inl ⟨following, rfl, rfl, by simp [step, fetch, hd, hr]⟩))
    | none => exact .inr (.inr (.inr ⟨rfl, rfl, by simp [step, fetch, hd, hr]⟩))

/-! ### The register files -/

@[simp] theorem detuneAll_getElem (n : Nat) (d : F32) (offsets : Vector F32 16) (i : Fin 16) :
    (detuneAll n d offsets)[i] = if i.val < n then detuneOffsetOf i.val n d else offsets[i] := by
  simp [detuneAll]

@[simp] theorem bankAdvance_getElem (n : Nat) (current fs : F32) (offsets phases : Vector F32 16) (i : Fin 16) :
    (bankAdvance n current fs offsets phases)[i] =
      if i.val < n then nextPhase phases[i] (oscFrequency current offsets[i]) fs else phases[i] := by
  simp [bankAdvance]

end Sys2Proof.Machine
end

