-- ==== Sys2Proof/Tests/Slice0.lean ====
section
/-! SUPPORT. The model's own tests: expected values are those of spec/95_test_vectors.md and of the worked examples in the
rules, never the model's own answers; and one witness for every statement that has hypotheses. -/

namespace Sys2Proof.Machine

/-! ### Helpers -/

/-- A voice after `INIT n, fstart, fs, flfo, 2.5`. -/
def voice (n : Word) (fstart fs flfo : F32) : State := configureVoice n fstart fs flfo 0x40200000 State.reset

/-- `INIT 4, 1000, 8000, 1000, 2.5` (R170). -/
def voice4 : State := voice 4 0x447A0000 0x45FA0000 0x447A0000

/-- `INIT 1, 400, 48000, 1, 2.5` and `SETT 20000` (R205). -/
def scenario : State := retarget 0x469C4000 (voice 1 0x43C80000 0x473B8000 0x3F800000)

/-- A sweep between two frequencies, from Pending, at 8000 samples a second and an LFO rate of 1000 Hz. -/
def sweepFrom (start target : F32) : State := retarget target (voice 1 start 0x45FA0000 0x447A0000)

/-- A voice at its target. -/
def settled : State := { voice4 with sweep := .atTarget }

/-- The state an outcome answers, or `s`. -/
def nextOr (s : State) : Host.Outcome State Fault Refusal → State
  | .next t => t
  | .fault _ => s
  | .refused _ => s

/-- The responses after one command. -/
def answers (i : Instr) (s : State) : List Response := (nextOr s (exec i s)).responses

/-! ### Well-formedness: an ill-formed term for the one check, which it refuses (R72) -/

theorem test_reserved_index_07_is_ill_formed : wellFormed (.rdsr 0x07) = false := by decide
theorem test_reserved_indices_09_to_0F_are_ill_formed :
    wellFormed (.rdsr 0x09) = false ∧ wellFormed (.rdsr 0x0F) = false := by decide
theorem test_reserved_indices_from_30_are_ill_formed :
    wellFormed (.rdsr 0x30) = false ∧ wellFormed (.rdsr 0xFF) = false := by decide

/-! ### Decoding: words written out from R74 and R78, for every constructor -/

theorem test_decode_init : decode [0x00000001, 0x00000004, 0x447A0000, 0x45FA0000, 0x447A0000, 0x40200000] =
    .command (.init 4 0x447A0000 0x45FA0000 0x447A0000 0x40200000) [] := by decide
theorem test_decode_sett : decode [0x00000002, 0x43580000, 0x11] = .command (.sett 0x43580000) [0x11] := by decide
theorem test_decode_sets : decode [0x00000003, 0x42480000] = .command (.sets 0x42480000) [] := by decide
theorem test_decode_detune : decode [0x00000004, 0xBF800000] = .command (.detune 0xBF800000) [] := by decide
theorem test_decode_proc : decode [0x00000008, 0x3F800000, 0x3DA3D70A, 0x3F000000] =
    .command (.proc 0x3F800000 0x3DA3D70A 0x3F000000) [] := by decide
theorem test_decode_rdsr : decode [0x00002F10] = .command (.rdsr 0x2F) [] := by decide
theorem test_decode_isat : decode [0x00000011] = .command .isat [] := by decide
theorem test_decode_illegal : decode [0x00000000] = .illegal .unknownOpcode [] ∧
    decode [0x00010001] = .illegal .reservedBits [] ∧ decode [0x00000102] = .illegal .indexWithoutRdsr [] ∧
    decode [0x00000710] = .illegal .reservedIndex [] := by decide
theorem test_bytes_are_little_endian : serialise [0x00000310] = [0x10, 0x03, 0x00, 0x00] := by decide
theorem test_table_word : decodeTableWord 32 0x310 = some (.rdsr 0x03) ∧
    decodeTableWord 32 0x8 = some (.proc 0 0 0) ∧ decodeTableWord 32 0x710 = none := by decide +kernel

/-! ### The f32 primitives: examples of R99 to R102 and vectors of V-F32 -/

theorem test_fadd_signed_zeros : fadd 0x00000000 0x80000000 = 0x00000000 ∧ fadd 0x80000000 0x80000000 = 0x80000000 := by
  decide +kernel
theorem test_fmul_signed_zero : fmul 0x00000000 0xC0000000 = 0x80000000 := by decide +kernel
/-- `fdiv(1, 48000)` and `fdiv(400, 48000)`, R205. -/
theorem test_fdiv_increments : fdiv 0x3F800000 0x473B8000 = 0x37AEC33E ∧ fdiv 0x43C80000 0x473B8000 = 0x3C088889 := by
  decide +kernel
theorem test_ffloor_of_negative_fraction : ffloor 0xBE800000 = 0xBF800000 ∧ ffloor 0x80000000 = 0x80000000 := by
  decide +kernel
/-- R202: `fsub(200.2, 55.1)` and the sum that exceeds 200.2. -/
theorem test_rounding_twice : fsub 0x43483333 0x425C6666 = 0x4311199A ∧ fadd 0x4311199A 0x425C6666 = 0x43483334 := by
  decide +kernel

/-- R103. -/
theorem test_comparisons : fle 0x7FC00000 0x7FC00000 = false ∧ feq 0x80000000 0x00000000 = true ∧
    flt 0x7F7FFFFF 0x7F800000 = true ∧ fgt 0x80000000 0xFF800000 = true ∧ fabs 0xFFC00001 = 0x7FC00001 := by decide +kernel

/-! ### Range, Scaler, shaper, generator, detune: R111, R116, R124, R132, R133, R146 -/

theorem test_range_reversed : rangeNew 0x41200000 0xC0A00000 = ⟨0xC0A00000, 0x41200000⟩ ∧
    rangeLength ⟨0xC0A00000, 0x41200000⟩ = 0x41700000 ∧ rangeConstrain ⟨0xC0A00000, 0x41200000⟩ 0x41400000 = 0x41200000 := by
  decide +kernel
theorem test_scaler : (scalerNew ⟨0x00000000, 0x41200000⟩ ⟨0x00000000, 0x41200000⟩).map (scalerScale · 0x40533333) =
    some 0x40533332 := by decide +kernel
theorem test_scaler_refuses_empty_input : (scalerNew ⟨0x3F800000, 0x3F800000⟩ unitRange).isNone = true := by decide +kernel
theorem test_shape : shape 0x3DA3D70A 0x3F000000 0x3F000000 = 0x3EAF5C29 ∧ shape 0x7FC00000 0x3F000000 0x00000000 = 0 := by
  decide +kernel
/-- R122: `shape(-1, 2, 0.25) = -0.125` and `shape(-1, 2, 0.75) = 1.125`. -/
theorem test_shape_leaves_the_unit_interval : shape 0xBF800000 0x40000000 0x3E800000 = 0xBE000000 ∧
    shape 0xBF800000 0x40000000 0x3F400000 = 0x3F900000 := by decide +kernel
theorem test_generator_wraps : nextPhase 0x3E800000 0xC57A0000 0x45FA0000 = 0x3F400000 ∧
    nextPhase 0x3F600000 0x447A0000 0x45FA0000 = 0x00000000 := by decide +kernel
theorem test_ramp : normalise (lfoWave 0x3DCCCCCD) = 0x3DCCCCCC ∧ normalise (lfoWave 0x3F7FFFFF) = 0x3F7FFFFF := by
  decide +kernel
theorem test_detune_of_three : (List.range 3).map (detuneOffsetOf · 3 0x40200000) = [0xC0200000, 0x40200000, 0x40A00000] := by
  decide +kernel

/-! ### One or two steps of each command -/

/-- R170. -/
theorem test_init_accepts : let t := nextOr State.reset (exec (.init 4 0x447A0000 0x45FA0000 0x447A0000 0x40200000) State.reset)
    t.responses = [⟨0, 0⟩] ∧ t.targetFreq = 0x447A0000 ∧ t.detuneOffset.toList.take 5 =
      [0xC0A00000, 0xC0200000, 0x40200000, 0x40A00000, 0x00000000] := by decide +kernel
/-- R170, R238. -/
theorem test_init_rejects : answers (.init 17 0x43C80000 0x473B8000 0x3F800000 0x40200000) State.reset = [⟨0x00000101, 0⟩] ∧
    answers (.init 2 0x43C80000 0x00000000 0x3F800000 0x40200000) voice4 = [⟨0x00000301, 0⟩] := by decide +kernel
/-- R158: START 200, TARGET 300, CURRENT 220; SETT 216. -/
theorem test_sett_from_current :
    let s := { voice4 with startFreq := 0x43480000, targetFreq := 0x43960000, currentFreq := 0x435C0000, sweep := .inTransit }
    let t := nextOr s (exec (.sett 0x43580000) s)
    t.startFreq = 0x435C0000 ∧ t.targetFreq = 0x43580000 ∧ t.currentFreq = 0x435C0000 ∧ t.sweep = .pending := by decide +kernel
/-- R83: before and after INIT. -/
theorem test_sett_rejects : answers (.sett 0xBF800000) voice4 = [⟨0x00000101, 0⟩] ∧
    answers (.sett 0xBF800000) State.reset = [⟨0x00000002, 0⟩] := by decide +kernel
/-- R162: START 220, TARGET 216, CURRENT 216, AtTarget; SETS 50. -/
theorem test_sets_jumps :
    let s := { voice4 with startFreq := 0x435C0000, targetFreq := 0x43580000, currentFreq := 0x43580000, sweep := .atTarget }
    let t := nextOr s (exec (.sets 0x42480000) s)
    t.startFreq = 0x42480000 ∧ t.targetFreq = 0x43580000 ∧ t.currentFreq = 0x42480000 ∧ t.sweep = .pending := by decide +kernel
/-- R167: three oscillators, DETUNE -1. -/
theorem test_detune_minus_one :
    let s := voice 3 0x43DC0000 0x473B8000 0x3F800000
    (nextOr s (exec (.detune 0xBF800000) s)).detuneOffset.toList.take 4 = [0x3F800000, 0xBF800000, 0xC0000000, 0] := by
  decide +kernel
/-- R167: DETUNE NaN. -/
theorem test_detune_rejects_nan : answers (.detune 0x7FC00000) voice4 = [⟨0x00000101, 0⟩] := by decide +kernel
/-- R205, the first PROC, with the reference waveform. -/
theorem test_proc_first_sample : let t := produceSample oscWaveRef 0x3F800000 0x3DA3D70A 0x3F000000 scenario
    t.responses = [⟨0, 0xBF800000⟩] ∧ t.lfoPhase = 0x37AEC33E ∧ t.oscPhase[0] = 0x3C088889 ∧
      t.trace = [⟨0x43C80000, 0x469C4000, 0, 1, 0, 0, 0x43C80000, 0x43C80000, 0xBF800000⟩] := by decide +kernel
/-- R202: the descending sweep that is skipped. -/
theorem test_proc_skips_descending_sweep :
    let t := produceSample oscWaveRef 0x3F800000 0x3F000000 0x3F000000 (sweepFrom 0x43483333 0x425C6666)
    t.trace.map (fun r => [r.stateBefore, r.stateAfter, r.unconstrained, r.clamped]) =
      [[0, 2, 0x43483334, 0x425C6666]] := by decide +kernel
/-- R211. -/
theorem test_rdsr_reads : answers (.rdsr 0x00) voice4 = [⟨0, 1⟩] ∧ answers (.rdsr 0x03) voice4 = [⟨0, 0x447A0000⟩] ∧
    answers (.rdsr 0x10) voice4 = [⟨0, 0xC0A00000⟩] := by decide +kernel
/-- R211: on a reset voice. -/
theorem test_rdsr_before_init : answers (.rdsr 0x00) State.reset = [⟨0, 0⟩] ∧
    answers (.rdsr 0x03) State.reset = [⟨0x00000002, 0⟩] := by decide +kernel
/-- R83. -/
theorem test_isat : answers .isat settled = [⟨0, 1⟩] ∧ answers .isat voice4 = [⟨0, 0⟩] ∧
    answers .isat State.reset = [⟨0x00000002, 0⟩] := by decide +kernel
/-- R238: an illegal header is one word; the next word is a header. -/
theorem test_step_illegal_header : let s := { State.reset with inputs := presentWords [0x00010001, 0x00000010] }
    nextOr s (step s) = { State.reset with inputs := presentWords [0x00000010], responses := [⟨3, 0⟩] } := by decide +kernel
/-- R243: reset discards a command cut short. -/
theorem test_step_reset : let s := { settled with inputs := [.word 0x00000002, .reset, .word 0x00000011] }
    (nextOr s (step s)).initialised = false ∧ (nextOr s (step s)).inputs = [.word 0x00000011] := by decide +kernel
/-- The host's placing of a table word runs that command first, its operands zero. -/
theorem test_withFetchWord : answers (.sett 0) State.reset =
    (nextOr State.reset (step (State.reset.withFetchWord 32 2))).responses := by decide +kernel

/-! ### The assembler: R89, R90, R92 -/

theorem test_assemble_names : assembleWords "RDSR CURRENT_FREQ\nRDSR 0x03\nRDSR OSC_PHASE[15]".toList =
    some [0x00000310, 0x00000310, 0x00002F10] := by decide +kernel
theorem test_assemble_literals : assembleWords "SETT -0 ; minus zero\n\nDETUNE =0x7FC00001".toList =
    some [2, 0x80000000, 4, 0x7FC00001] := by decide +kernel
theorem test_disassemble : disassemble [0x00000002, 0x40200000, 0x00000000] =
    ["SETT =0x40200000 ; 2.5".toList, ".word 0x00000000".toList] := by decide +kernel

/-! ### Witnesses: for every statement with hypotheses, a state and operands that meet them -/

theorem witness_DecodeOfEncodeIsTheCommand : WellFormed (.rdsr 0x2F) := by decide
theorem witness_DecodedCommandHasTheseWords : decode [0x00000810] = .command (.rdsr 0x08) [] := by decide
theorem witness_CommandSurvivesByteTransport : WellFormed (.rdsr 0x06) := by decide
/-- Each kind of illegal header, and the edges of the defined indices. -/
theorem witness_IllegalHeadersAreExactlyThese : headerRsv 0x00010001 ≠ 0 ∧ headerOpc 0x00000012 = 0x12 ∧
    (headerOpc 0x00000102 ≠ 0x10 ∧ headerIdx 0x00000102 ≠ 0) ∧
    [0x00000710, 0x00000910, 0x00000F10, 0x00003010].map selectRow = [none, none, none, none] ∧
    [0x00000610, 0x00000810, 0x00001010, 0x00002F10].map (fun h => (selectRow h).isSome) = [true, true, true, true] := by
  decide
theorem witness_CommandIsIncompleteUntilItsLastWord :
    WellFormed (.init 1 0 1 0 0) ∧ 0 < (encode (.init 1 0 1 0 0)).length ∧ 5 < (encode (.init 1 0 1 0 0)).length := by decide
theorem witness_StepRunsTheDecodedCommand :
    let s := { voice4 with inputs := [.word 0x00000002, .word 0x43580000, .reset] }
    decode (wordsBeforeReset s.inputs) = .command (.sett 0x43580000) [] := by decide
theorem witness_IllegalHeaderIsOneWordRejected :
    let s := { voice4 with inputs := [.word 0x00000710, .word 0x00000011] }
    s.inputs = .word 0x00000710 :: [.word 0x00000011] ∧ decode [0x00000710] = .illegal .reservedIndex [] := by decide
theorem witness_CutShortCommandWaits : let s := { voice4 with inputs := [.word 0x00000008, .word 0, .word 0] }
    s.inputs = presentWords [0x00000008, 0, 0] ∧ decode [0x00000008, 0, 0] = .incomplete := by decide
theorem witness_ResetDiscardsPartialCommand : let s := { voice4 with inputs := [.word 0x00000002, .reset, .word 0x11] }
    s.inputs = presentWords [0x00000002] ++ .reset :: [.word 0x11] ∧ decode [0x00000002] = .incomplete := by decide
theorem witness_MergedStreamsRunInOrder :
    Merge [.sett 0x43580000] [.proc 0 0 0, .isat] [.proc 0 0 0, .sett 0x43580000, .isat] ∧
      (∀ i ∈ [Instr.sett 0x43580000], WellFormed i) ∧ (∀ i ∈ [Instr.proc 0 0 0, .isat], WellFormed i) :=
  ⟨.right _ (.left _ (.right _ .nil)), by decide, by decide⟩
/-- The smallest and the largest count, the zeros, the smallest sample rate, the largest detune. -/
theorem witness_InitConfiguresTheVoice : 1 ≤ (1 : Word).toNat ∧ (16 : Word).toNat ≤ 16 ∧
    finite 0x80000000 = true ∧ fge 0x80000000 0x00000000 = true ∧ finite 0x00000001 = true ∧
    fgt 0x00000001 0x00000000 = true ∧ finite 0xFF7FFFFF = true := by decide +kernel
theorem witness_InitReportsTheFirstBadOperand :
    (0 : Word).toNat = 0 ∧ 16 < (17 : Word).toNat ∧ (1 ≤ (16 : Word).toNat ∧ (16 : Word).toNat ≤ 16) ∧
    ¬ (finite 0x80000001 = true ∧ fge 0x80000001 0x00000000 = true) ∧
    (finite 0x80000000 = true ∧ fge 0x80000000 0x00000000 = true) ∧
    ¬ (finite 0x00000000 = true ∧ fgt 0x00000000 0x00000000 = true) ∧
    (finite 0x00000001 = true ∧ fgt 0x00000001 0x00000000 = true) ∧
    ¬ (finite 0x7F800000 = true ∧ fge 0x7F800000 0x00000000 = true) ∧ finite 0x7F800000 = false := by decide +kernel
theorem witness_SettRetargetsFromTheCurrentFrequency :
    voice4.initialised = true ∧ (finite 0x7F7FFFFF = true ∧ fge 0x7F7FFFFF 0x00000000 = true) ∧
    ¬ (finite 0x7F800000 = true ∧ fge 0x7F800000 0x00000000 = true) ∧ State.reset.initialised = false := by decide +kernel
theorem witness_SetsJumpsAndKeepsTheTarget :
    voice4.initialised = true ∧ (finite 0x80000000 = true ∧ fge 0x80000000 0x00000000 = true) ∧
    ¬ (finite 0x80000001 = true ∧ fge 0x80000001 0x00000000 = true) ∧ State.reset.initialised = false := by decide +kernel
theorem witness_DetuneWritesTheActiveOffsets : voice4.initialised = true ∧ finite 0xFF7FFFFF = true ∧
    finite 0xFF800000 = false ∧ State.reset.initialised = false := by decide +kernel
theorem witness_NotInitialisedExactlyBeforeInit :
    WellFormed (.rdsr 0x01) ∧ State.reset.initialised = false ∧ WellFormed (.rdsr 0x00) ∧ voice4.initialised = true := by
  decide
theorem witness_RejectionsOfEachCommand : WellFormed (.init 0 0 0 0 0) ∧
    exec (.init 0 0 0 0 0) voice4 = .next { voice4 with responses := [⟨0x00000101, 0⟩] } ∧
    responseStatus ⟨0x00000101, 0⟩ = 1 := ⟨rfl, rfl, by decide⟩
theorem witness_RdsrReadsTheIndexedRegister : voice4.initialised = true := by decide
theorem witness_IsatReportsAtTarget : settled.initialised = true ∧ State.reset.initialised = false := by decide
theorem witness_IsatAgreesWithStatus : settled.initialised = true ∧
    exec .isat settled = .next { settled with responses := [⟨0, 1⟩] } ∧
    exec (.rdsr 0x00) settled = .next { settled with responses := [⟨0, 5⟩] } := ⟨rfl, rfl, rfl⟩
theorem witness_ProcIsTheWholePseudocode :
    scenario.initialised = true ∧ (finite 0x80000000 = true ∧ fge 0x80000000 0x00000000 = true) ∧
    ¬ (finite 0xBF800000 = true ∧ fge 0xBF800000 0x00000000 = true) ∧ State.reset.initialised = false := by decide +kernel

/-- An accepted PROC, for the witnesses below. -/
theorem exec_proc_scenario : exec (.proc 0x3F800000 0 0) scenario =
    .next (produceSample oscWave 0x3F800000 0 0 scenario) := by
  simp [exec, execProc, show scenario.initialised = true from rfl, show frequencyOk 0x3F800000#32 = true by decide +kernel]

theorem witness_RejectionHasNoOtherEffect :
    exec (.sett 0) State.reset = .next { State.reset with responses := [] ++ [⟨2, 0⟩] } ∧
      responseStatus ⟨2, 0⟩ ≠ 0 := ⟨rfl, by decide⟩
theorem witness_OneTraceRecordPerAcceptedProc : ∃ t r, exec (.proc 0x3F800000 0 0) scenario = .next t ∧
    t.responses = scenario.responses ++ [r] ∧ responseStatus r = 0 :=
  ⟨_, _, exec_proc_scenario, rfl, responseStatus_responseOf _ _ _⟩
theorem witness_OnlyInitSetsInitialised : ∃ t, exec (.init 1 0 1 0 0) State.reset = .next t ∧
    State.reset.initialised = false ∧ t.initialised = true := ⟨_, rfl, rfl, by decide +kernel⟩
theorem witness_OnlyInitChangesTheConfiguration : ∃ t, exec (.init 1 0 1 0 0) State.reset = .next t ∧
    t.oscCount ≠ State.reset.oscCount ∧ t.sampleRate ≠ State.reset.sampleRate := ⟨_, rfl, by decide +kernel⟩
theorem witness_WritersOfTargetPhasesAndOffsets :
    (∃ t, exec (.sett 0) voice4 = .next t ∧ t.targetFreq ≠ voice4.targetFreq) ∧
    (∃ t, exec (.proc 0x3F800000 0 0) scenario = .next t ∧ t.lfoPhase ≠ scenario.lfoPhase) ∧
    ∃ t, exec (.detune 0) voice4 = .next t ∧ t.detuneOffset ≠ voice4.detuneOffset :=
  ⟨⟨_, rfl, by decide +kernel⟩, ⟨_, exec_proc_scenario, by decide +kernel⟩, ⟨_, rfl, by decide +kernel⟩⟩
theorem witness_StateMovesForwardUntilRetargeted : ∃ t, exec (.sets 0) settled = .next t ∧
    settled.sweep = .atTarget ∧ t.sweep ≠ .atTarget ∧ settled.sweep ≠ .pending ∧ t.sweep = .pending :=
  ⟨_, rfl, by decide +kernel⟩
/-- AtTarget; a candidate exactly 1.0 Hz from the target; a candidate further off. -/
theorem witness_ProcTransitionTable : settled.initialised = true ∧ settled.sweep = .atTarget ∧
    (sweepFrom 0 0x3F800000).sweep ≠ .atTarget ∧
    converged 0 0x3F800000 (candidate 0 0x3F800000 (shapedOf (sweepFrom 0 0x3F800000) 0x3F800000 0 0)) = true ∧
    converged 0 0x3F800001 (candidate 0 0x3F800001 (shapedOf (sweepFrom 0 0x3F800001) 0x3F800000 0 0)) = false ∧
    finite 0x3F800000 = true ∧ fge 0x3F800000 0x00000000 = true := by decide +kernel

/-- The registers of `voice4`, for the witnesses below. -/
theorem voice4_legal : RegistersLegal voice4 :=
  ⟨by decide +kernel, by decide +kernel, by decide +kernel, by decide +kernel, by decide +kernel, by decide⟩
theorem voice4_phases : PhasesLegal voice4 := ⟨by decide +kernel, by decide +kernel⟩

/-- `voice4` about to execute an ISAT. -/
def asked : State := { voice4 with inputs := [.word 0x00000011] }

theorem asked_steps : step asked = .next { voice4 with responses := [⟨0, 0⟩] } := rfl

theorem witness_StepKeepsRegistersLegalAndInWindow : RegistersInvariant asked ∧ ∃ t, step asked = .next t :=
  ⟨fun _ => ⟨⟨voice4_legal.1, voice4_legal.2, voice4_legal.3, voice4_legal.4, voice4_legal.5, voice4_legal.6⟩,
    by unfold InWindow; decide +kernel⟩, _, asked_steps⟩
theorem witness_StepKeepsPhasesInUnit : PhasesInvariant asked ∧ ∃ t, step asked = .next t :=
  ⟨fun _ => ⟨voice4_phases.1, voice4_phases.2⟩, _, asked_steps⟩
theorem witness_StepKeepsTargetExact :
    let s := { settled with inputs := [.word 0x00000011] }
    ExactAtTarget s ∧ s.initialised = true ∧ s.sweep = .atTarget ∧ ∃ t, step s = .next t :=
  ⟨fun _ _ => rfl, rfl, rfl, _, rfl⟩
theorem witness_StepKeepsSlots : SlotsInvariant asked ∧ ∃ t, step asked = .next t :=
  ⟨fun _ => ⟨by unfold InactiveSlotsZero; decide +kernel, by unfold OffsetsNotNaN; decide +kernel⟩, _, asked_steps⟩
theorem witness_UnspecifiedRegistersAreNeverObserved :
    Indistinguishable State.reset { State.reset with startFreq := 0x7FC00001, sweep := .atTarget, oscCount := 31 } ∧
      State.reset ≠ { State.reset with startFreq := 0x7FC00001, sweep := .atTarget, oscCount := 31 } :=
  ⟨.inr ⟨rfl, rfl, rfl, rfl, rfl, rfl⟩, by decide⟩
/-- A tie, and a result that is not zero. -/
theorem witness_SumIsTheNearestValue : finite 0x4B800000 = true ∧ finite 0x3F800000 = true ∧ finite 0x4B800001 = true ∧
    finite (fadd 0x4B800000 0x3F800000) = true ∧
    (value (fadd 0x4B800000 0x3F800000) - (value 0x4B800000 + value 0x3F800000)).natAbs =
      (value 0x4B800001 - (value 0x4B800000 + value 0x3F800000)).natAbs ∧
    value 0x4B800001 ≠ value (fadd 0x4B800000 0x3F800000) := by decide +kernel
/-- The largest finite value and half its last place overflow; anything less does not. -/
theorem witness_SumOverflowsToInfinity : finite 0x7F7FFFFF = true ∧ finite 0x73000000 = true ∧
    isInf (fadd 0x7F7FFFFF 0x73000000) = true ∧ isInf (fadd 0x7F7FFFFF 0x72FFFFFF) = false ∧
    isInf (fadd 0xFF7FFFFF 0xF3000000) = true := by decide +kernel
theorem witness_ProductIsTheNearestValue : finite 0x3F800001 = true ∧ finite 0xBFC00000 = true ∧
    finite (fmul 0x3F800001 0xBFC00000) = true ∧ finite (fmul 0x00000001 0x3F000000) = true ∧
    isInf (fmul 0xFF7FFFFF 0x3F800001) = true ∧ isInf (fmul 0xFF7FFFFF 0x3F800000) = false := by decide +kernel
theorem witness_QuotientIsTheNearestValue : finite 0x3F800000 = true ∧ finite 0xC0400000 = true ∧
    isZero 0xC0400000 = false ∧ finite (fdiv 0x3F800000 0xC0400000) = true ∧
    isInf (fdiv 0x7F7FFFFF 0x3F7FFFFF) = true ∧ isInf (fdiv 0x7F7FFFFF 0x3F800000) = false := by decide +kernel
theorem witness_SpecialSums : isNaN 0x7F800001 = true ∧ isInf 0xFF800000 = true ∧ finite 0x80000000 = true := by decide
theorem witness_SpecialProductsAndQuotients : isNaN 0xFFFFFFFF = true ∧ isZero 0x80000000 = true ∧
    isInf 0xFF800000 = true ∧ isZero 0x00000001 = false ∧ isNaN 0x7F800000 = false ∧ finite 0x00000001 = true := by decide
theorem witness_FloorAndIntegersAreExact : finite 0x80000001 = true ∧ isInf 0xFF800000 = true ∧
    isZero 0x80000000 = true ∧ isNaN 0x7F800001 = true ∧ (-8 : Int) ≤ -8 ∧ (8 : Int) ≤ 8 ∧ i2f (-8) = 0xC1000000 := by
  decide +kernel
theorem witness_ComparisonsRangesAndClamps : isNaN 0x7F800001 = true ∧ finite 0x7F7FFFFF = true ∧ finite 0x80000000 = true ∧
    isNaN 0x7F800000 = false ∧ isNaN 0xFF800000 = false ∧ fle 0xFF800000 0x7F800000 = true ∧
    flt 0xFF800000 0x80000000 = true ∧ fgt 0x7F800000 0x3F800000 = true ∧
    rangeContains ⟨0x00000000, 0x3F800000⟩ 0x80000000 = true := by decide +kernel
theorem witness_InfiniteOffsetHoldsThePhase : phaseOk 0x3F7FFFFF = true ∧ finite 0x00000000 = true ∧
    isInf 0xFF800000 = true ∧ finite 0x00000001 = true ∧ fgt 0x00000001 0x00000000 = true := by decide +kernel
theorem witness_RampStaysInUnit : phaseOk 0x3F7FFFFF = true ∧ phaseOk 0x00000001 = true ∧ phaseOk 0x80000000 = false := by
  decide +kernel
theorem witness_DetuneMultiplesSkipZero : 2 ≤ 2 ∧ 16 % 2 = 0 ∧ 15 < 16 := by decide

/-- A voice whose registers are legal, at the start of a sweep, for the witnesses below. -/
theorem sweepFrom_legal {start target : F32} (h : frequencyOk start = true) (h' : frequencyOk target = true) :
    RegistersLegal (sweepFrom start target) :=
  ⟨h, h', h, by show frequencyOk 0x447A0000 = true; decide +kernel,
    by show sampleRateOk 0x45FA0000 = true; decide +kernel, by
    show 1 ≤ ((1 : Word).setWidth 5).toNat ∧ ((1 : Word).setWidth 5).toNat ≤ 16; decide⟩

/-- Exactly 1.0 Hz from the target, and one last place further. -/
theorem witness_AscendingSweepStartsAtItsStart : RegistersLegal (sweepFrom 0x80000000 0x3F800000) ∧
    RegistersLegal (sweepFrom 0x80000000 0x3F800001) ∧ (sweepFrom 0x80000000 0x3F800000).initialised = true ∧
    (sweepFrom 0x80000000 0x3F800000).sweep = .pending ∧ finite 0x3F800000 = true ∧ fge 0x3F800000 0x00000000 = true ∧
    fle 0x80000000 0x3F800000 = true ∧ fle (fsub 0x3F800000 0x80000000) 0x3F800000 = true ∧
    fle (fsub 0x3F800001 0x80000000) 0x3F800000 = false :=
  ⟨sweepFrom_legal (by decide +kernel) (by decide +kernel), sweepFrom_legal (by decide +kernel) (by decide +kernel),
    by decide +kernel⟩
/-- R202's pair, which is skipped, and a pair that is not. -/
theorem witness_DescendingSweepMayBeSkipped : RegistersLegal (sweepFrom 0x43483333 0x425C6666) ∧
    RegistersLegal (sweepFrom 0x40400000 0x00000000) ∧ (sweepFrom 0x43483333 0x425C6666).initialised = true ∧
    (sweepFrom 0x43483333 0x425C6666).sweep = .pending ∧ finite 0x00000000 = true ∧ fge 0x00000000 0x00000000 = true ∧
    fgt 0x43483333 0x425C6666 = true ∧ fgt (fadd (fsub 0x43483333 0x425C6666) 0x425C6666) 0x43483333 = true ∧
    fgt 0x40400000 0x00000000 = true :=
  ⟨sweepFrom_legal (by decide +kernel) (by decide +kernel), sweepFrom_legal (by decide +kernel) (by decide +kernel),
    by decide +kernel⟩
theorem witness_ZeroLengthWindowCompletesAtOnce : RegistersLegal (sweepFrom 0x00000000 0x80000000) ∧
    (sweepFrom 0x00000000 0x80000000).initialised = true ∧ feq 0x00000000 0x80000000 = true ∧
    finite 0x3F800000 = true ∧ fge 0x3F800000 0x00000000 = true :=
  ⟨sweepFrom_legal (by decide +kernel) (by decide +kernel), by decide +kernel⟩
theorem witness_NonFiniteCandidateConverges : frequencyOk 0x80000000 = true ∧ frequencyOk 0x7F7FFFFF = true ∧
    finite 0x7FC00000 = false ∧ finite 0xFF800000 = false := by decide +kernel
/-- A voice whose LFO stands, `INIT 4, 1000, 8000, -0, 2.5` and `SETT 1`, in Pending. -/
def still : State := retarget 0x3F800000 (voice 4 0x447A0000 0x45FA0000 0x80000000)

/-- A zero multiplier on a sweep under way, and a zero LFO base frequency in Pending, where the phase becomes `+0.0`. -/
theorem witness_ZeroRateHoldsTheRamp :
    RegistersLegal { voice4 with sweep := .inTransit, lfoPhase := 0x3F7FFFFF } ∧
    PhasesLegal { voice4 with sweep := .inTransit, lfoPhase := 0x3F7FFFFF } ∧ voice4.initialised = true ∧
    RegistersLegal still ∧ PhasesLegal still ∧ still.initialised = true ∧ still.sweep = .pending ∧
    isZero still.lfoBaseFreq = true ∧ finite 0x80000000 = true ∧ fge 0x80000000 0x00000000 = true ∧ isZero 0x80000000 = true ∧
    finite 0x7F7FFFFF = true ∧ fge 0x7F7FFFFF 0x00000000 = true :=
  ⟨⟨voice4_legal.1, voice4_legal.2, voice4_legal.3, voice4_legal.4, voice4_legal.5, voice4_legal.6⟩,
    ⟨by decide +kernel, voice4_phases.2⟩, rfl,
    ⟨by decide +kernel, by decide +kernel, by decide +kernel, by decide +kernel, by decide +kernel, by decide⟩,
    ⟨by decide +kernel, by decide +kernel⟩, by decide +kernel⟩
theorem witness_EverySampleIsFinite : voice4.initialised = true ∧ PhasesLegal voice4 ∧ finite 0x3F800000 = true ∧
    fge 0x3F800000 0x00000000 = true := ⟨rfl, voice4_phases, by decide +kernel⟩

end Sys2Proof.Machine
end

section
/-! PROOFS. The classes, values and comparisons of f32 patterns, `fabs`, and the ranges with their clamps (R12, R97, R102,
R103, R106, R108, R109). -/

namespace Sys2Proof.Machine

/-! ### The fields of a pattern (R12, R97) -/

theorem signBit_eq_getLsbD (v : F32) : signBit v = v.getLsbD 31 := by
  simp [signBit, BitVec.msb_eq_getLsbD_last]

/-- The biased exponent is the quotient of the magnitude pattern by 2^23. -/
theorem exponent_eq (v : F32) : (v.extractLsb' 23 8).toNat = magPattern v / 2 ^ 23 := by
  rw [BitVec.extractLsb'_toNat, Nat.shiftRight_eq_div_pow, magPattern]
  omega

/-- The fraction is the remainder of the magnitude pattern by 2^23. -/
theorem fraction_eq (v : F32) : (v.extractLsb' 0 23).toNat = magPattern v % 2 ^ 23 := by
  rw [BitVec.extractLsb'_toNat, Nat.shiftRight_zero, magPattern]
  omega

/-- `infPattern` is the exponent 255 with a zero fraction, so the class of a magnitude pattern is read from its two fields. -/
theorem classes_iff_fields (v : F32) :
    (finite v = true ↔ magPattern v / 2 ^ 23 ≠ 255) ∧
    (isInf v = true ↔ magPattern v / 2 ^ 23 = 255 ∧ magPattern v % 2 ^ 23 = 0) ∧
    (isNaN v = true ↔ magPattern v / 2 ^ 23 = 255 ∧ magPattern v % 2 ^ 23 ≠ 0) ∧
    (isZero v = true ↔ magPattern v / 2 ^ 23 = 0 ∧ magPattern v % 2 ^ 23 = 0) := by
  have hlt := magPattern_lt v
  have hinf : infPattern = 255 * 2 ^ 23 := rfl
  simp only [finite, isInf, isNaN, isZero, decide_eq_true_eq, beq_iff_eq]
  omega

/-- The value of any pattern as sign times magnitude, the magnitude by its two fields. -/
theorem value_eq_sign_mul (v : F32) :
    value v = (if signBit v then -1 else 1) *
      ((if magPattern v / 2 ^ 23 = 0 then magPattern v % 2 ^ 23
        else (2 ^ 23 + magPattern v % 2 ^ 23) * 2 ^ (magPattern v / 2 ^ 23 - 1) : Nat) : Int) := by
  rw [← magnitude]
  cases h : signBit v
  · rw [value_nonneg h, if_neg Bool.false_ne_true, one_mul]
  · rw [value_neg h, if_pos rfl, neg_one_mul]

/-- `fabs` clears bit 31 and nothing else, whatever the class. -/
theorem fabs_eq_and (v : F32) : fabs v = v &&& 0x7FFFFFFF := by
  apply BitVec.eq_of_toNat_eq
  rw [fabs, toNat_packF32 (magPattern_lt v), BitVec.toNat_and,
    show (0x7FFFFFFF : F32).toNat = 2 ^ 31 - 1 from rfl, Nat.and_two_pow_sub_one_eq_mod, magPattern]
  simp

/-! ### Comparisons (R103) -/

section
variable {a b : F32}

theorem flt_iff : flt a b = true ↔ isNaN a = false ∧ isNaN b = false ∧ value a < value b := by
  simp [flt, and_assoc]

theorem fle_iff : fle a b = true ↔ isNaN a = false ∧ isNaN b = false ∧ value a ≤ value b := by
  simp [fle, and_assoc]

theorem flt_of_not_nan (ha : isNaN a = false) (hb : isNaN b = false) : flt a b = decide (value a < value b) := by
  simp [flt, ha, hb]

theorem fle_of_not_nan (ha : isNaN a = false) (hb : isNaN b = false) : fle a b = decide (value a ≤ value b) := by
  simp [fle, ha, hb]

theorem feq_of_not_nan (ha : isNaN a = false) (hb : isNaN b = false) : feq a b = decide (value a = value b) := by
  simp [feq, ha, hb]

theorem flt_of_nan (h : isNaN a = true ∨ isNaN b = true) : flt a b = false := by
  rcases h with h | h <;> simp [flt, h]

theorem fle_of_nan (h : isNaN a = true ∨ isNaN b = true) : fle a b = false := by
  rcases h with h | h <;> simp [fle, h]

theorem feq_of_nan (h : isNaN a = true ∨ isNaN b = true) : feq a b = false := by
  rcases h with h | h <;> simp [feq, h]

theorem isNaN_of_finite (h : finite a = true) : isNaN a = false := ((finite_iff a).mp h).1

/-- The values are totally ordered, so without a NaN `fle` is the negation of the reversed `flt`. -/
theorem fle_eq_not_flt (ha : isNaN a = false) (hb : isNaN b = false) : fle a b = !flt b a := by
  rw [fle_of_not_nan ha hb, flt_of_not_nan hb ha, ← decide_not]
  exact decide_eq_decide.mpr not_lt.symm

theorem feq_eq_fle_and_fle (ha : isNaN a = false) (hb : isNaN b = false) : feq a b = (fle a b && fle b a) := by
  rw [feq_of_not_nan ha hb, fle_of_not_nan ha hb, fle_of_not_nan hb ha, ← Bool.decide_and]
  exact decide_eq_decide.mpr le_antisymm_iff

theorem fle_of_flt (h : flt a b = true) : fle a b = true := by
  obtain ⟨ha, hb, hlt⟩ := flt_iff.mp h
  exact fle_iff.mpr ⟨ha, hb, hlt.le⟩

end

/-! ### The infinities -/

/-- A finite value lies strictly between the values the formula gives the two infinities. -/
theorem value_lt_of_finite {x : F32} (h : finite x = true) :
    value 0xFF800000 < value x ∧ value x < value 0x7F800000 := by
  have hmag : magnitude (magPattern x) < magnitude infPattern := magnitude_lt_iff.mpr (by simpa [finite] using h)
  have hpos : value 0x7F800000 = magnitude infPattern := value_nonneg (by decide)
  have hneg : value 0xFF800000 = -(magnitude infPattern : Int) := value_neg (by decide)
  have habs := natAbs_value x
  omega

theorem flt_infinities_of_finite {x : F32} (h : finite x = true) :
    flt x 0x7F800000 = true ∧ flt 0x7F800000 x = false ∧ flt 0xFF800000 x = true ∧ flt x 0xFF800000 = false := by
  obtain ⟨hlow, hhigh⟩ := value_lt_of_finite h
  have hx := isNaN_of_finite h
  have hpos : isNaN 0x7F800000 = false := by decide
  have hneg : isNaN 0xFF800000 = false := by decide
  rw [flt_of_not_nan hx hpos, flt_of_not_nan hpos hx, flt_of_not_nan hneg hx, flt_of_not_nan hx hneg]
  exact ⟨decide_eq_true hhigh, decide_eq_false hhigh.not_gt, decide_eq_true hlow, decide_eq_false hlow.not_gt⟩

/-! ### Ranges and clamps (R106, R108, R109) -/

/-- Reversed bounds are swapped, so the bounds of a range made without a NaN are in order. -/
theorem fle_rangeNew {a b : F32} (ha : isNaN a = false) (hb : isNaN b = false) :
    fle (rangeNew a b).low (rangeNew a b).high = true := by
  unfold rangeNew
  split
  case isTrue hgt => exact fle_of_flt hgt
  case isFalse hle => rw [fle_eq_not_flt ha hb, Bool.not_eq_true']; exact Bool.eq_false_iff.mpr hle

theorem rangeNew_of_nan {a b : F32} (h : isNaN a = true ∨ isNaN b = true) : rangeNew a b = ⟨a, b⟩ := by
  rw [rangeNew, fgt, flt_of_nan h.symm, if_neg Bool.false_ne_true]

section
variable {r : Range} {v : F32}

theorem rangeConstrain_of_below (h : flt v r.low = true) : rangeConstrain r v = r.low := if_pos h

/-- Above the upper bound of an ordered range the clamp is at that bound: the value is not below the lower one as well. -/
theorem rangeConstrain_of_above (hr : fle r.low r.high = true) (h : fgt v r.high = true) :
    rangeConstrain r v = r.high := by
  have hbelow : ¬ flt v r.low = true := by
    intro hlow
    obtain ⟨_, _, hlt⟩ := flt_iff.mp hlow
    obtain ⟨_, _, hle⟩ := fle_iff.mp hr
    obtain ⟨_, _, hgt⟩ := flt_iff.mp h
    omega
  rw [rangeConstrain, if_neg hbelow, if_pos h]

theorem rangeConstrain_of_nan (h : isNaN v = true) : rangeConstrain r v = v := by
  rw [rangeConstrain, fgt, flt_of_nan (.inl h), flt_of_nan (.inr h), if_neg Bool.false_ne_true, if_neg Bool.false_ne_true]

/-- A value beyond neither bound lies inside: the third case of the clamp. -/
theorem rangeContains_of_not_beyond (hr : fle r.low r.high = true) (hv : isNaN v = false)
    (hlow : flt v r.low = false) (hhigh : fgt v r.high = false) : rangeContains r v = true := by
  rw [rangeContains, fle_eq_not_flt (isNaN_of_fle_left hr) hv, fle_eq_not_flt hv (isNaN_of_fle_right hr), hlow]
  exact congrArg not hhigh

/-- The clamp of a value that is no NaN lies in the range, whichever of its three cases it took. -/
theorem rangeContains_rangeConstrain (hr : fle r.low r.high = true) (hv : isNaN v = false) :
    rangeContains r (rangeConstrain r v) = true := by
  cases hlow : flt v r.low with
  | true => rw [rangeConstrain_of_below hlow, rangeContains, fle_self (isNaN_of_fle_left hr), hr]; rfl
  | false =>
    cases hhigh : fgt v r.high with
    | true => rw [rangeConstrain_of_above hr hhigh, rangeContains, fle_self (isNaN_of_fle_right hr), hr]; rfl
    | false =>
      have hin := rangeContains_of_not_beyond hr hv hlow hhigh
      rwa [rangeConstrain_of_contains hin]

end

/-- Settles O49: the fields give class and value, the comparisons are those of the values, the infinities bound every finite
value, and the clamp is taken through its three cases. -/
theorem comparisonsRangesAndClamps : Obligations.ComparisonsRangesAndClamps := by
  unfold Obligations.ComparisonsRangesAndClamps
  refine ⟨fun v => ?fields, fun a b h => ?withNaN, fun a b ha hb => ?onFinite, fun a b ha hb => ?order,
    fun x hx => flt_infinities_of_finite hx, by decide +kernel, by decide +kernel, by decide +kernel, by decide +kernel,
    by decide +kernel, fabs_eq_and, fun a b ha hb => ⟨fle_rangeNew ha hb, rfl⟩, fun a b h => rangeNew_of_nan h,
    fun r v hr hv => ⟨rangeContains_rangeConstrain hr hv, rangeConstrain_of_below, rangeConstrain_of_above hr⟩,
    fun r v h => h.elim rangeConstrain_of_contains rangeConstrain_of_nan⟩
  case fields =>
    obtain ⟨hfinite, hinf, hnan, hzero⟩ := classes_iff_fields v
    simp only [exponent_eq, fraction_eq, ← signBit_eq_getLsbD]
    exact ⟨hfinite, hinf, hnan, hzero, trivial, fun _ => value_eq_sign_mul v⟩
  case withNaN => exact ⟨flt_of_nan h, fle_of_nan h, flt_of_nan h.symm, fle_of_nan h.symm, feq_of_nan h⟩
  case onFinite =>
    have ha := isNaN_of_finite ha
    have hb := isNaN_of_finite hb
    simp only [fgt, fge, flt_of_not_nan, fle_of_not_nan, feq_of_not_nan, ha, hb, decide_eq_true_eq, and_self]
  case order => exact ⟨rfl, rfl, fle_eq_not_flt ha hb, feq_eq_fle_and_fle ha hb⟩

end Sys2Proof.Machine
end

section
/-! PROOFS. The state of the voice: which command writes which register (R28, R32 to R39, R247), the invariants every step
keeps (R40 to R42, R131), what INIT leaves (R44), what RDSR reads (R56, R208), when NOT_INITIALISED is answered (R220), and
that the registers the spec leaves unspecified after reset are never observed (R43, R242). -/

namespace Sys2Proof.Machine

/-! ### What the next state of a command is -/

section
variable {i : Instr} {s t : State}

/-- The next state of a command is that of a rejection, or of an accepted command with its response. -/
theorem exec_next_cases (h : exec i s = .next t) :
    (∃ r number, Rejects i s r number ∧ t = raise r number s) ∨ (∃ v u, Accepts i s v u ∧ t = accept v u) := by
  rcases exec_cases i s with ⟨r, number, hr, he⟩ | ⟨v, u, ha, he⟩
  · exact .inl ⟨r, number, hr, Host.Outcome.next.inj (h.symm.trans he)⟩
  · exact .inr ⟨v, u, ha, Host.Outcome.next.inj (h.symm.trans he)⟩

/-- A rejection writes no register (R217), so a command that changes what a response leaves alone was accepted. -/
theorem accepts_of_exec_changes {α : Type} (field : State → α)
    (hport : ∀ status info v u, field (respond status info v u) = field u)
    (h : exec i s = .next t) (hne : field t ≠ field s) : ∃ v u, Accepts i s v u ∧ field u ≠ field s := by
  rcases exec_next_cases h with ⟨r, number, _, rfl⟩ | ⟨v, u, ha, rfl⟩
  · exact absurd (hport _ _ _ s) hne
  · exact ⟨v, u, ha, fun hu => hne ((hport _ _ _ u).trans hu)⟩

/-! ### Writers of the registers -/

theorem init_of_initialised_changes (h : exec i s = .next t) (hne : t.initialised ≠ s.initialised) :
    ∃ n fstart fs flfo d, i = .init n fstart fs flfo d := by
  obtain ⟨v, u, ha, hu⟩ := accepts_of_exec_changes State.initialised (fun _ _ _ _ => rfl) h hne
  cases ha with
  | init => exact ⟨_, _, _, _, _, rfl⟩
  | _ => exact absurd rfl hu

theorem initialised_of_accepts {v : Word} (h : Accepts i s v t) (hs : s.initialised = true) : t.initialised = true := by
  cases h with
  | init => rfl
  | _ => exact hs

theorem init_of_configuration_changes (h : exec i s = .next t)
    (hne : (t.oscCount, t.sampleRate, t.lfoBaseFreq) ≠ (s.oscCount, s.sampleRate, s.lfoBaseFreq)) :
    ∃ n fstart fs flfo d, i = .init n fstart fs flfo d := by
  obtain ⟨v, u, ha, hu⟩ := accepts_of_exec_changes (fun s => (s.oscCount, s.sampleRate, s.lfoBaseFreq))
    (fun _ _ _ _ => rfl) h hne
  cases ha with
  | init => exact ⟨_, _, _, _, _, rfl⟩
  | _ => exact absurd rfl hu

theorem init_or_sett_of_target_changes (h : exec i s = .next t) (hne : t.targetFreq ≠ s.targetFreq) :
    (∃ n a b c d, i = .init n a b c d) ∨ ∃ f, i = .sett f := by
  obtain ⟨v, u, ha, hu⟩ := accepts_of_exec_changes State.targetFreq (fun _ _ _ _ => rfl) h hne
  cases ha with
  | init => exact .inl ⟨_, _, _, _, _, rfl⟩
  | sett => exact .inr ⟨_, rfl⟩
  | _ => exact absurd rfl hu

theorem init_or_proc_of_phase_changes (h : exec i s = .next t)
    (hne : (t.lfoPhase, t.oscPhase) ≠ (s.lfoPhase, s.oscPhase)) :
    (∃ n a b c d, i = .init n a b c d) ∨ ∃ m c1 c2, i = .proc m c1 c2 := by
  obtain ⟨v, u, ha, hu⟩ := accepts_of_exec_changes (fun s => (s.lfoPhase, s.oscPhase)) (fun _ _ _ _ => rfl) h hne
  cases ha with
  | init => exact .inl ⟨_, _, _, _, _, rfl⟩
  | proc => exact .inr ⟨_, _, _, rfl⟩
  | _ => exact absurd rfl hu

theorem init_or_detune_of_offset_changes (h : exec i s = .next t) (hne : t.detuneOffset ≠ s.detuneOffset) :
    (∃ n a b c d, i = .init n a b c d) ∨ ∃ d, i = .detune d := by
  obtain ⟨v, u, ha, hu⟩ := accepts_of_exec_changes State.detuneOffset (fun _ _ _ _ => rfl) h hne
  cases ha with
  | init => exact .inl ⟨_, _, _, _, _, rfl⟩
  | detune => exact .inr ⟨_, rfl⟩
  | _ => exact absurd rfl hu

end

/-- Settles O30: the accepted commands are gone through for the writer of the flag, and INIT alone writes it, with 1. -/
theorem onlyInitSetsInitialised : Obligations.OnlyInitSetsInitialised := by
  unfold Obligations.OnlyInitSetsInitialised
  refine fun i s t h => ⟨fun hs => ?stays, fun hs ht => init_of_initialised_changes h (by simp [hs, ht])⟩
  case stays =>
    rcases exec_next_cases h with ⟨r, number, _, rfl⟩ | ⟨v, u, ha, rfl⟩
    · exact hs
    · exact (accept_initialised u v).trans (initialised_of_accepts ha hs)

/-- Settles O31: the three registers are one field for the search of the writer. -/
theorem onlyInitChangesTheConfiguration : Obligations.OnlyInitChangesTheConfiguration := by
  unfold Obligations.OnlyInitChangesTheConfiguration
  intro i s t h hne
  refine init_of_configuration_changes h fun heq => ?_
  obtain ⟨hcount, hrate, hbase⟩ : t.oscCount = s.oscCount ∧ t.sampleRate = s.sampleRate ∧ t.lfoBaseFreq = s.lfoBaseFreq := by
    simpa using heq
  simp [hcount, hrate, hbase] at hne

/-- Settles O32: one search of the writer for the target, for the phases, and for the offsets. -/
theorem writersOfTargetPhasesAndOffsets : Obligations.WritersOfTargetPhasesAndOffsets := by
  unfold Obligations.WritersOfTargetPhasesAndOffsets
  refine fun i s t h => ⟨init_or_sett_of_target_changes h, fun hne => ?phases, init_or_detune_of_offset_changes h⟩
  case phases =>
    refine init_or_proc_of_phase_changes h fun heq => ?_
    obtain ⟨hlfo, hosc⟩ := Prod.ext_iff.mp heq
    exact hne.elim (absurd hlfo) (absurd hosc)

/-! ### Which command answers NOT_INITIALISED (R220, R224) -/

/-- The commands that check `INITIALISED` first: all but INIT and `RDSR 0x00` (R220). -/
def ChecksInitialised (i : Instr) : Prop := i ≠ .rdsr 0x00 ∧ ¬ ∃ n fstart fs flfo d, i = .init n fstart fs flfo d

theorem not_checksInitialised_init (n : Word) (fstart fs flfo d : F32) : ¬ ChecksInitialised (.init n fstart fs flfo d) :=
  fun h => h.2 ⟨_, _, _, _, _, rfl⟩

theorem checksInitialised_rdsr {idx : BitVec 8} : ChecksInitialised (.rdsr idx) ↔ idx ≠ 0 := by
  simp [ChecksInitialised]

/-- Of the rejections of a well-formed command, those of the first check are NOT_INITIALISED, and no others. -/
theorem rejects_notInitialised_iff {i : Instr} {s : State} {r : Rejection} {number : BitVec 8} (hi : WellFormed i)
    (h : Rejects i s r number) : r = .notInitialised ↔ s.initialised = false ∧ ChecksInitialised i := by
  cases h with
  | init => simp [not_checksInitialised_init]
  | settBefore hs | setsBefore hs | detuneBefore hs | procBefore hs | isatBefore hs => simp [hs, ChecksInitialised]
  | sett hs | sets hs | detune hs | proc hs => simp [hs]
  | @rdsrReserved idx _ hr =>
    have hdefined : definedIndex idx = true := hi
    simp [(statusRegOf_eq_none idx).mp hr] at hdefined
  | @rdsrBefore idx _ r hs hr h0 =>
    have hidx : idx ≠ 0 := fun hzero =>
      h0 (Option.some.inj (hr.symm.trans ((statusRegOf_eq_status idx).mpr hzero)))
    exact iff_of_true rfl ⟨hs, checksInitialised_rdsr.mpr hidx⟩

theorem not_checksInitialised_of_accepts {i : Instr} {s t : State} {v : Word} (h : Accepts i s v t)
    (hs : s.initialised = false) : ¬ ChecksInitialised i := by
  cases h with
  | init => exact not_checksInitialised_init _ _ _ _ _
  | status hr => exact fun hi => checksInitialised_rdsr.mp hi ((statusRegOf_eq_status _).mp hr)
  | sett h | sets h | detune h | proc h | rdsr h | isat h => exact absurd (hs.symm.trans h) Bool.false_ne_true

/-- Settles O20: a rejection has status 2 exactly before INIT, and a command accepted before INIT is one that does not
check the flag. -/
theorem notInitialisedExactlyBeforeInit : Obligations.NotInitialisedExactlyBeforeInit := by
  unfold Obligations.NotInitialisedExactlyBeforeInit
  intro i s hi
  rcases exec_cases i s with ⟨r, number, hr, he⟩ | ⟨v, t, ha, he⟩
  · refine ⟨_, _, he, raise_responses s r number, ?_⟩
    have hcode : rejectionCode r = 2 ↔ r = .notInitialised := by cases r <;> decide
    rw [responseStatus_responseOf, hcode]
    exact rejects_notInitialised_iff hi hr
  · refine ⟨_, _, he, (accept_responses t v).trans (by rw [accepts_responses ha]), ?_⟩
    rw [responseStatus_responseOf]
    exact ⟨fun h => absurd h (by decide), fun ⟨hs, hchecks⟩ => absurd hchecks (not_checksInitialised_of_accepts ha hs)⟩

/-! ### RDSR on an initialised voice (R56, R208) -/

theorem exec_rdsr_of_initialised {s : State} {idx : BitVec 8} {r : StatusReg} (hs : s.initialised = true)
    (hr : statusRegOf idx = some r) : exec (.rdsr idx) s = .next (accept (srRead r s) s) := by
  simp only [exec, execRdsr, hr]
  cases r with
  | status => rfl
  | _ => simp only [whenInitialised_of_true hs]

theorem statusRegOf_detuneOffset (i : Fin 16) : statusRegOf (BitVec.ofNat 8 (0x10 + i.val)) = some (.detuneOffset i) := by
  revert i
  decide

theorem statusRegOf_oscPhase (i : Fin 16) : statusRegOf (BitVec.ofNat 8 (0x20 + i.val)) = some (.oscPhase i) := by
  revert i
  decide

/-- Settles O23: each index names its location, and the accepted read answers the content of that location. -/
theorem rdsrReadsTheIndexedRegister : Obligations.RdsrReadsTheIndexedRegister := by
  unfold Obligations.RdsrReadsTheIndexedRegister
  intro s hs
  rw [BitVec.ofNat_toNat]
  exact ⟨exec_rdsr_of_initialised hs (r := .startFreq) rfl, exec_rdsr_of_initialised hs (r := .targetFreq) rfl,
    exec_rdsr_of_initialised hs (r := .currentFreq) rfl, exec_rdsr_of_initialised hs (r := .oscCount) rfl,
    exec_rdsr_of_initialised hs (r := .lfoBaseFreq) rfl, exec_rdsr_of_initialised hs (r := .sampleRate) rfl,
    exec_rdsr_of_initialised hs (r := .lfoPhase) rfl,
    fun i => ⟨exec_rdsr_of_initialised hs (statusRegOf_detuneOffset i),
      exec_rdsr_of_initialised hs (statusRegOf_oscPhase i)⟩⟩

/-! ### An accepted INIT (R44, R148) -/

/-- One check of the chain: it passes when the operand is legal and the checks after it pass. -/
theorem check_eq_none {α : Type} {ok : Bool} {number : α} {later : Option α} :
    (if !ok then some number else later) = none ↔ ok = true ∧ later = none := by
  cases ok <;> simp

/-- INIT is accepted exactly when its five operands are legal (R148, R149). -/
theorem initOffence_eq_none {n : Word} {fstart fs flfo d : F32} : initOffence n fstart fs flfo d = none ↔
    countOk n = true ∧ frequencyOk fstart = true ∧ sampleRateOk fs = true ∧ frequencyOk flfo = true ∧ detuneOk d = true := by
  simp only [initOffence, check_eq_none, and_true]

theorem exec_init_of_legal {n : Word} {fstart fs flfo d : F32} (s : State) (h : initOffence n fstart fs flfo d = none) :
    exec (.init n fstart fs flfo d) s = .next (accept 0 (configureVoice n fstart fs flfo d s)) := by
  simp only [exec, execInit, h]

/-- On a cleared file the detune distribution is the offsets of the active slots and `+0.0` elsewhere (R154). -/
theorem detuneAll_replicate (n : Nat) (d : F32) : detuneAll n d (Vector.replicate 16 f0) =
    Vector.ofFn (fun i => if i.val < n then fmul (i2f (detuneMultiple i.val n)) d else f0) := by
  simp [detuneAll, detuneOffsetOf]

/-- Settles O15: legal operands give no offence, and the voice configured is the one R44 lists. -/
theorem initConfiguresTheVoice : Obligations.InitConfiguresTheVoice := by
  unfold Obligations.InitConfiguresTheVoice
  intro n fstart fs flfo d s hn hn' hstart hstart' hfs hfs' hflfo hflfo' hd
  have hcount : countOk n = true := Bool.and_eq_true_iff.mpr ⟨decide_eq_true hn, decide_eq_true hn'⟩
  have hlegal : initOffence n fstart fs flfo d = none :=
    initOffence_eq_none.mpr ⟨hcount, Bool.and_eq_true_iff.mpr ⟨hstart, hstart'⟩, Bool.and_eq_true_iff.mpr ⟨hfs, hfs'⟩,
      Bool.and_eq_true_iff.mpr ⟨hflfo, hflfo'⟩, hd⟩
  have hphases : Vector.replicate 16 f0 = Vector.ofFn (fun _ => (0x00000000 : F32)) := rfl
  rw [exec_init_of_legal s hlegal, configureVoice, detuneAll_replicate, hphases, BitVec.ofNat_toNat]
  rfl

/-! ### Invariants of the registers: one induction step for all of them -/

/-- What a property of the registers must satisfy for every step to keep it on an initialised voice: it reads no port, INIT
establishes it from any state, and the accepted command of each other kind that writes a register keeps it. -/
structure KeptByCommands (P : State → Prop) : Prop where
  ports : ∀ {s : State} (inputs : List InputEvent) (responses : List Response) (trace : List TraceRecord) (nanDraws : Nat),
    P s → P { s with inputs := inputs, responses := responses, trace := trace, nanDraws := nanDraws }
  init : ∀ {n : Word} {fstart fs flfo d : F32} (s : State),
    initOffence n fstart fs flfo d = none → P (configureVoice n fstart fs flfo d s)
  sett : ∀ {f : F32} {s : State}, frequencyOk f = true → P s → P (retarget f s)
  sets : ∀ {f : F32} {s : State}, frequencyOk f = true → P s → P (restartFrom f s)
  detune : ∀ {d : F32} {s : State}, detuneOk d = true → P s → P (redetune d s)
  proc : ∀ {m c1 c2 : F32} {s : State}, frequencyOk m = true → P s → P (advanceVoice m c1 c2 s)

section
variable {P : State → Prop} (hP : KeptByCommands P) {s t : State}
include hP

theorem KeptByCommands.of_accepts {i : Instr} {v : Word} (h : Accepts i s v t) (hs : s.initialised = true → P s) :
    t.initialised = true → P t := by
  cases h with
  | init h => exact fun _ => hP.init s h
  | sett h hf => exact fun _ => hP.sett hf (hs h)
  | sets h hf => exact fun _ => hP.sets hf (hs h)
  | detune h hd => exact fun _ => hP.detune hd (hs h)
  | proc h hm => exact fun _ => hP.ports _ _ _ _ (hP.proc hm (hs h))
  | status | rdsr | isat => exact hs

theorem KeptByCommands.of_exec {i : Instr} (h : exec i s = .next t) (hs : s.initialised = true → P s) :
    t.initialised = true → P t := by
  rcases exec_next_cases h with ⟨r, number, _, rfl⟩ | ⟨v, u, ha, rfl⟩
  · exact fun hinit => hP.ports _ _ _ _ (hs hinit)
  · exact fun hinit => hP.ports _ _ _ _ (hP.of_accepts ha hs hinit)

/-- The step lemma of every invariant that binds an initialised voice: a reset clears `INITIALISED`, and the words a step
takes off the port are no register. -/
theorem KeptByCommands.of_step (hs : s.initialised = true → P s) (h : step s = .next t) : t.initialised = true → P t := by
  rcases step_cases s with ⟨i, _, _, he⟩ | ⟨_, _, _, he⟩ | ⟨following, _, _, he⟩ | ⟨_, _, he⟩
  · exact hP.of_exec (he.symm.trans h) fun hinit => hP.ports _ _ _ _ (hs hinit)
  · obtain rfl := Host.Outcome.next.inj (he.symm.trans h)
    exact fun hinit => hP.ports (s := s) _ _ _ _ (hs hinit)
  · obtain rfl := Host.Outcome.next.inj (he.symm.trans h)
    exact fun hinit => absurd hinit Bool.false_ne_true
  · obtain rfl := Host.Outcome.next.inj (he.symm.trans h)
    exact hs

end

/-! ### AtTarget is exact (R42) -/

/-- `ExactAtTarget` (R42) without its guard by `INITIALISED`, which the step lemma supplies. -/
def PlaysItsTarget (s : State) : Prop := s.sweep = .atTarget → s.currentFreq = s.targetFreq

/-- Steps 5 to 8 that end in AtTarget answer the target itself, not a candidate near it (R187). -/
theorem sweepStep_current_of_atTarget {draw : Nat} {x : SweepState} {start target sh : F32}
    (h : (sweepStep draw x start target sh).sweep = .atTarget) : (sweepStep draw x start target sh).current = target := by
  rcases sweepStep_cases draw x start target sh with ⟨_, he⟩ | ⟨_, _, he⟩ | ⟨_, _, he⟩ <;> rw [he] at h ⊢
  exact nomatch h

theorem playsItsTarget_kept : KeptByCommands PlaysItsTarget where
  ports _ _ _ _ hs := hs
  init _ _ := nofun
  sett _ _ := nofun
  sets _ _ := nofun
  detune _ hs := hs
  proc _ _ := sweepStep_current_of_atTarget

/-- Settles O38: INIT, SETT and SETS leave AtTarget, and PROC enters it with the target as the frequency. -/
theorem stepKeepsTargetExact : Obligations.StepKeepsTargetExact := by
  unfold Obligations.StepKeepsTargetExact
  exact fun _ _ hs h => playsItsTarget_kept.of_step hs h

/-! ### The window holds legal frequencies (R40, R41) -/

/-- In the order of the formula the infinity is above every finite value, so a non-negative value below it is finite. -/
theorem finite_of_value {v : F32} (h0 : 0 ≤ value v) (hlt : value v < value 0x7F800000) : finite v = true := by
  have hinf : value 0x7F800000 = magnitude infPattern := value_nonneg (by decide)
  have hmag : magnitude (magPattern v) < magnitude infPattern := by have := natAbs_value v; omega
  simpa [finite] using magnitude_lt_iff.mp hmag

theorem value_f0 : value f0 = 0 := by decide

/-- A legal frequency by its value alone: the test excludes NaNs and both infinities, and admits both zeros. -/
theorem frequencyOk_iff {f : F32} : frequencyOk f = true ↔ 0 ≤ value f ∧ value f < value 0x7F800000 := by
  simp only [frequencyOk, fge, Bool.and_eq_true, fle_iff, value_f0]
  refine ⟨fun ⟨hfin, _, _, h0⟩ => ⟨h0, (value_lt_of_finite hfin).2⟩, fun ⟨h0, hlt⟩ => ?_⟩
  have hfin := finite_of_value h0 hlt
  exact ⟨hfin, by decide, isNaN_of_finite hfin, h0⟩

theorem isNaN_of_frequencyOk {f : F32} (h : frequencyOk f = true) : isNaN f = false :=
  isNaN_of_finite (Bool.and_eq_true_iff.mp h).1

theorem rangeNew_cases (a b : F32) : rangeNew a b = ⟨a, b⟩ ∨ rangeNew a b = ⟨b, a⟩ := by
  unfold rangeNew
  split
  · exact .inr rfl
  · exact .inl rfl

/-- Whatever lies between two legal frequencies is a legal frequency. -/
theorem frequencyOk_of_inWindow {a b v : F32} (ha : frequencyOk a = true) (hb : frequencyOk b = true)
    (h : rangeContains (rangeNew a b) v = true) : frequencyOk v = true := by
  obtain ⟨ha0, ha1⟩ := frequencyOk_iff.mp ha
  obtain ⟨hb0, hb1⟩ := frequencyOk_iff.mp hb
  obtain ⟨hlow, hhigh⟩ := Bool.and_eq_true_iff.mp h
  obtain ⟨_, _, hlow⟩ := fle_iff.mp hlow
  obtain ⟨_, _, hhigh⟩ := fle_iff.mp hhigh
  rw [frequencyOk_iff]
  rcases rangeNew_cases a b with hr | hr <;> rw [hr] at hlow hhigh
  · exact ⟨ha0.trans hlow, hhigh.trans_lt hb1⟩
  · exact ⟨hb0.trans hlow, hhigh.trans_lt ha1⟩

/-- The window of two frequencies contains both of them (R106, R108). -/
theorem rangeNew_contains_ends {a b : F32} (ha : isNaN a = false) (hb : isNaN b = false) :
    rangeContains (rangeNew a b) a = true ∧ rangeContains (rangeNew a b) b = true := by
  have hordered := fle_rangeNew ha hb
  rcases rangeNew_cases a b with hr | hr <;> rw [hr] at hordered ⊢ <;>
    simp [rangeContains, fle_self ha, fle_self hb, show fle _ _ = true from hordered]

/-- Steps 5 to 8 answer the target or a candidate inside the window: a frequency of the window in every case (R41). -/
theorem sweepStep_current_inWindow {draw : Nat} {x : SweepState} {start target sh : F32} (hstart : isNaN start = false)
    (htarget : isNaN target = false) :
    rangeContains (rangeNew start target) (sweepStep draw x start target sh).current = true := by
  rcases sweepStep_cases draw x start target sh with ⟨_, he⟩ | ⟨_, _, he⟩ | ⟨_, hconv, he⟩ <;> rw [he]
  · exact (rangeNew_contains_ends hstart htarget).2
  · exact (rangeNew_contains_ends hstart htarget).2
  · exact contains_of_not_converged hconv

theorem toNat_setWidth_of_countOk {n : Word} (h : countOk n = true) :
    1 ≤ (n.setWidth 5).toNat ∧ (n.setWidth 5).toNat ≤ Config.maxOscillators := by
  obtain ⟨hlow, hhigh⟩ := Bool.and_eq_true_iff.mp h
  have hlow : 1 ≤ n.toNat := of_decide_eq_true hlow
  have hhigh : n.toNat ≤ 16 := of_decide_eq_true hhigh
  rw [BitVec.toNat_setWidth, Config.maxOscillators]
  omega

/-- INIT makes a window of one legal frequency, and its checks are the legality of the other registers. -/
theorem configureVoice_legal_inWindow {n : Word} {fstart fs flfo d : F32} (s : State)
    (h : initOffence n fstart fs flfo d = none) :
    RegistersLegal (configureVoice n fstart fs flfo d s) ∧ InWindow (configureVoice n fstart fs flfo d s) := by
  obtain ⟨hn, hstart, hfs, hflfo, _⟩ := initOffence_eq_none.mp h
  have hnan := isNaN_of_frequencyOk hstart
  exact ⟨⟨hstart, hstart, hstart, hflfo, hfs, toNat_setWidth_of_countOk hn⟩, (rangeNew_contains_ends hnan hnan).1⟩

/-- PROC writes no end of the window, and its frequency stays inside. -/
theorem advanceVoice_legal_inWindow {m c1 c2 : F32} {s : State} (hs : RegistersLegal s) :
    RegistersLegal (advanceVoice m c1 c2 s) ∧ InWindow (advanceVoice m c1 c2 s) := by
  have hwindow : InWindow (advanceVoice m c1 c2 s) :=
    sweepStep_current_inWindow (isNaN_of_frequencyOk hs.startFreq) (isNaN_of_frequencyOk hs.targetFreq)
  exact ⟨{ hs with currentFreq := frequencyOk_of_inWindow hs.startFreq hs.targetFreq hwindow }, hwindow⟩

/-- SETT starts the new window at the frequency the voice has. -/
theorem retarget_legal_inWindow {f : F32} {s : State} (hf : frequencyOk f = true) (hs : RegistersLegal s) :
    RegistersLegal (retarget f s) ∧ InWindow (retarget f s) := by
  refine ⟨{ hs with startFreq := hs.currentFreq, targetFreq := hf }, ?_⟩
  exact (rangeNew_contains_ends (isNaN_of_frequencyOk hs.currentFreq) (isNaN_of_frequencyOk hf)).1

/-- SETS starts the new window at the frequency it gives the voice. -/
theorem restartFrom_legal_inWindow {f : F32} {s : State} (hf : frequencyOk f = true) (hs : RegistersLegal s) :
    RegistersLegal (restartFrom f s) ∧ InWindow (restartFrom f s) := by
  refine ⟨{ hs with startFreq := hf, currentFreq := hf }, ?_⟩
  exact (rangeNew_contains_ends (isNaN_of_frequencyOk hf) (isNaN_of_frequencyOk hs.targetFreq)).1

theorem inWindow_redetune {d : F32} {s : State} : InWindow (redetune d s) ↔ InWindow s := by
  rw [InWindow, InWindow, redetune_startFreq, redetune_targetFreq, redetune_currentFreq]

theorem legal_inWindow_kept : KeptByCommands (fun s => RegistersLegal s ∧ InWindow s) where
  ports _ _ _ _ := fun ⟨hlegal, hwindow⟩ => ⟨{ hlegal with }, hwindow⟩
  init := configureVoice_legal_inWindow
  sett hf := fun ⟨hlegal, _⟩ => retarget_legal_inWindow hf hlegal
  sets hf := fun ⟨hlegal, _⟩ => restartFrom_legal_inWindow hf hlegal
  detune _ := fun ⟨hlegal, hwindow⟩ => ⟨{ hlegal with }, inWindow_redetune.mpr hwindow⟩
  proc _ := fun ⟨hlegal, _⟩ => advanceVoice_legal_inWindow hlegal

/-- Settles O36: SETT and SETS make the frequency an end of the new window, and PROC keeps it inside. -/
theorem stepKeepsRegistersLegalAndInWindow : Obligations.StepKeepsRegistersLegalAndInWindow := by
  unfold Obligations.StepKeepsRegistersLegalAndInWindow
  exact fun _ _ hs h => legal_inWindow_kept.of_step hs h

/-! ### Every wrapped phase is a phase (R128, R131) -/

theorem value_nonpos {v : F32} (h : signBit v = true) : value v ≤ 0 := by rw [value_neg h]; omega

/-- Rounding a whole number of units of 2^-149 other than zero is not zero: the least magnitude is one unit. -/
theorem roundMag_one_pos {k : Nat} (h : 0 < k) : 0 < roundMag k 1 := by
  have hone : roundMag 1 1 = 1 := roundMag_magnitude (p := 1) (den := 1) Nat.one_pos (by decide)
  have hmono : roundMag 1 1 ≤ roundMag k 1 := roundMag_mono Nat.one_pos Nat.one_pos (by omega)
  omega

theorem finite_of_isZero {v : F32} (h : isZero v = true) : finite v = true := by
  have hmag : magPattern v = 0 := by simpa [isZero] using h
  simp [finite, hmag, infPattern]

/-- R99: an operand that is no finite value yields an infinity or a NaN. -/
theorem finite_operands_of_fadd {a b : F32} (h : finite (fadd a b) = true) : finite a = true ∧ finite b = true := by
  have hnan : finite nan = false := by decide
  simp only [finite_iff a, finite_iff b]
  unfold fadd at h
  split_ifs at h with hn ha hab hb
  · simp [hnan] at h
  · simp [hnan] at h
  · simp [finite_iff, ha] at h
  · simp [finite_iff, hb] at h
  · simpa [ha, hb] using hn

/-- R99: a sum is `-0.0` only when both operands are. -/
theorem negative_zeros_of_fadd {a b : F32} (hz : isZero (fadd a b) = true) (hs : signBit (fadd a b) = true) :
    (isZero a = true ∧ signBit a = true) ∧ isZero b = true ∧ signBit b = true := by
  obtain ⟨ha, hb⟩ := finite_operands_of_fadd (finite_of_isZero hz)
  rw [fadd_of_finite ha hb] at hz hs
  rw [isZero, magPattern_packF32 (roundMag_lt _ _), beq_iff_eq] at hz
  have hsum : value a + value b = 0 := by
    by_contra hne
    exact (roundMag_one_pos (Int.natAbs_pos.mpr hne)).ne' hz
  rw [signBit_packF32 (roundMag_lt _ _), if_pos hsum] at hs
  obtain ⟨hsa, hsb⟩ := Bool.and_eq_true_iff.mp hs
  have hva := value_nonpos hsa
  have hvb := value_nonpos hsb
  exact ⟨⟨(value_eq_zero a).mp (by omega), hsa⟩, (value_eq_zero b).mp (by omega), hsb⟩

/-- R102: a zero of either sign is its own floor. -/
theorem ffloor_of_isZero {v : F32} (h : isZero v = true) : ffloor v = v := by
  simp [ffloor, isNaN_of_finite (finite_of_isZero h), h]

/-- The difference of R128 is never `-0.0`: of a negative zero it is `(-0.0) + (+0.0)`. -/
theorem fsub_ffloor_ne_negative_zero {x : F32} (hz : isZero (fsub x (ffloor x)) = true) :
    signBit (fsub x (ffloor x)) = false := by
  rw [Bool.eq_false_iff]
  intro hs
  obtain ⟨⟨hzero, hsign⟩, _, hsign'⟩ := negative_zeros_of_fadd hz hs
  rw [ffloor_of_isZero hzero, signBit_fneg, hsign] at hsign'
  exact Bool.false_ne_true hsign'

theorem phaseOk_f0 : phaseOk f0 = true := by decide +kernel

/-- In `[0, 1)` only `-0.0` is no phase. -/
theorem phaseOk_of_inUnit {y : F32} (h : inUnit y = true) (hzero : isZero y = true → signBit y = false) :
    phaseOk y = true := by
  obtain ⟨hlow, hhigh⟩ := Bool.and_eq_true_iff.mp h
  obtain ⟨_, _, hlow⟩ := fle_iff.mp hlow
  obtain ⟨_, _, hhigh⟩ := flt_iff.mp hhigh
  rw [value_f0] at hlow
  have hfin : finite y = true := finite_of_value hlow (hhigh.trans (value_lt_of_finite (by decide)).2)
  have hsign : signBit y = false := by
    rw [Bool.eq_false_iff]
    intro hs
    have hz : value y = 0 := le_antisymm (value_nonpos hs) hlow
    exact absurd (hzero ((value_eq_zero y).mp hz)) (by simp [hs])
  simp [phaseOk, hfin, h, hsign]

theorem phaseOk_wrapPhase (x : F32) : phaseOk (wrapPhase x) = true := by
  rcases wrapPhase_cases x with ⟨hunit, he⟩ | ⟨_, he⟩ <;> rw [he]
  · exact phaseOk_of_inUnit hunit fsub_ffloor_ne_negative_zero
  · exact phaseOk_f0

theorem phasesLegal_configureVoice (n : Word) (fstart fs flfo d : F32) (s : State) :
    PhasesLegal (configureVoice n fstart fs flfo d s) where
  lfoPhase := phaseOk_f0
  oscPhase i := by simpa using phaseOk_f0

/-- PROC wraps the phase of the LFO and of every active slot, and keeps the others (R191). -/
theorem phasesLegal_advanceVoice {m c1 c2 : F32} {s : State} (hs : PhasesLegal s) : PhasesLegal (advanceVoice m c1 c2 s) where
  lfoPhase := phaseOk_wrapPhase _
  oscPhase i := by
    rw [advanceVoice_oscPhase, bankAdvance_getElem]
    split
    · exact phaseOk_wrapPhase _
    · exact hs.oscPhase i

theorem phasesLegal_kept : KeptByCommands PhasesLegal where
  ports _ _ _ _ hs := { hs with }
  init s _ := phasesLegal_configureVoice _ _ _ _ _ s
  sett _ hs := { hs with }
  sets _ hs := { hs with }
  detune _ hs := { hs with }
  proc _ hs := phasesLegal_advanceVoice hs

/-- Settles O37: INIT and PROC alone write phases, with `+0.0` and with wrapped values. -/
theorem stepKeepsPhasesInUnit : Obligations.StepKeepsPhasesInUnit := by
  unfold Obligations.StepKeepsPhasesInUnit
  exact fun _ _ hs h => phasesLegal_kept.of_step hs h

/-! ### What reset leaves unspecified is never observed (R43, R242) -/

/-- Two uninitialised voices with the same ports: the second case of `Indistinguishable`, its parts named. -/
structure AlikeBeforeInit (s t : State) : Prop where
  left : s.initialised = false
  right : t.initialised = false
  inputs : s.inputs = t.inputs
  responses : s.responses = t.responses
  trace : s.trace = t.trace
  nanDraws : s.nanDraws = t.nanDraws

theorem indistinguishable_iff {s t : State} : Indistinguishable s t ↔ s = t ∨ AlikeBeforeInit s t :=
  or_congr_right ⟨fun ⟨hs, ht, hin, hresp, htrace, hdraws⟩ => ⟨hs, ht, hin, hresp, htrace, hdraws⟩,
    fun h => ⟨h.left, h.right, h.inputs, h.responses, h.trace, h.nanDraws⟩⟩

/-- Before INIT a command answers a response that depends on the command alone, or is an INIT that is accepted. -/
theorem exec_of_uninitialised (i : Instr) :
    (∃ status info v, ∀ s : State, s.initialised = false → exec i s = .next (respond status info v s)) ∨
      (∃ n fstart fs flfo d, ∀ s : State, exec i s = .next (accept 0 (configureVoice n fstart fs flfo d s))) := by
  cases i with
  | init n fstart fs flfo d =>
    cases h : initOffence n fstart fs flfo d with
    | some number => exact .inl ⟨_, number, 0, fun s _ => by simp only [exec, execInit, h]; rfl⟩
    | none => exact .inr ⟨n, fstart, fs, flfo, d, fun s => exec_init_of_legal s h⟩
  | rdsr idx =>
    cases hr : statusRegOf idx with
    | none => exact .inl ⟨_, _, _, fun s _ => by simp only [exec, execRdsr, hr]; rfl⟩
    | some r =>
      cases r with
      | status =>
        exact .inl ⟨statusOk, 0, 0, fun s hs => by simp [exec, execRdsr, hr, srRead, statusWord, hs, accept]⟩
      | _ => exact .inl ⟨_, _, _, fun s hs => by simp only [exec, execRdsr, hr, whenInitialised_of_false hs]; rfl⟩
  | sett | sets | detune | proc | isat =>
    exact .inl ⟨_, _, _, fun s hs => congrArg Host.Outcome.next (whenInitialised_of_false hs)⟩

/-- INIT writes every register (R44), so what it leaves depends on the ports alone. -/
theorem AlikeBeforeInit.configureVoice_eq {s t : State} (h : AlikeBeforeInit s t) (n : Word) (fstart fs flfo d : F32) :
    configureVoice n fstart fs flfo d s = configureVoice n fstart fs flfo d t := by
  simp only [configureVoice, h.inputs, h.responses, h.trace, h.nanDraws]

theorem AlikeBeforeInit.respond {s t : State} (h : AlikeBeforeInit s t) (status info : BitVec 8) (v : Word) :
    AlikeBeforeInit (Machine.respond status info v s) (Machine.respond status info v t) :=
  { h with responses := congrArg (· ++ [responseOf status info v]) h.responses }

theorem AlikeBeforeInit.takeInputs {s t : State} (h : AlikeBeforeInit s t) (remaining : List InputEvent) :
    AlikeBeforeInit { s with inputs := remaining } { t with inputs := remaining } :=
  { h with inputs := rfl }

theorem AlikeBeforeInit.applyReset_eq {s t : State} (h : AlikeBeforeInit s t) (following : List InputEvent) :
    applyReset following s = applyReset following t := by
  simp only [applyReset, h.nanDraws]

theorem AlikeBeforeInit.exec {s t : State} (h : AlikeBeforeInit s t) (i : Instr) :
    ∃ s' t', Machine.exec i s = .next s' ∧ Machine.exec i t = .next t' ∧ Indistinguishable s' t' := by
  rcases exec_of_uninitialised i with ⟨status, info, v, he⟩ | ⟨n, fstart, fs, flfo, d, he⟩
  · exact ⟨_, _, he s h.left, he t h.right, indistinguishable_iff.mpr (.inr (h.respond status info v))⟩
  · exact ⟨_, _, he s, he t, .inl (congrArg (accept 0) (h.configureVoice_eq n fstart fs flfo d))⟩

/-- The two voices have the same inputs, so they take the same thing from the port. -/
theorem AlikeBeforeInit.step {s t : State} (h : AlikeBeforeInit s t) :
    ∃ s' t', Machine.step s = .next s' ∧ Machine.step t = .next t' ∧ Indistinguishable s' t' := by
  unfold Machine.step
  rw [← h.inputs]
  cases fetch s.inputs with
  | command i remaining => exact (h.takeInputs remaining).exec i
  | illegal remaining => exact ⟨_, _, rfl, rfl, indistinguishable_iff.mpr (.inr ((h.takeInputs remaining).respond _ _ _))⟩
  | reset remaining => exact ⟨_, _, rfl, rfl, .inl (h.applyReset_eq remaining)⟩
  | waiting => exact ⟨_, _, rfl, rfl, indistinguishable_iff.mpr (.inr h)⟩

/-- Every step answers a next state: a command answers one, and nothing else stops either. -/
theorem step_answers_next (s : State) : ∃ t, step s = .next t := by
  rcases step_cases s with ⟨i, _, _, he⟩ | ⟨_, _, _, he⟩ | ⟨_, _, _, he⟩ | ⟨_, _, he⟩
  · rcases exec_cases i { s with inputs := s.inputs.drop (commandLength i) } with ⟨_, _, _, hx⟩ | ⟨_, _, _, hx⟩
    · exact ⟨_, he.trans hx⟩
    · exact ⟨_, he.trans hx⟩
  all_goals exact ⟨_, he⟩

theorem step_indistinguishable {s t : State} (h : Indistinguishable s t) :
    ∃ s' t', step s = .next s' ∧ step t = .next t' ∧ Indistinguishable s' t' := by
  rcases indistinguishable_iff.mp h with rfl | halike
  · obtain ⟨u, hu⟩ := step_answers_next s
    exact ⟨u, u, hu, hu, .inl rfl⟩
  · exact halike.step

theorem core_run_succ {s s' : State} (h : step s = .next s') (k : Nat) : core.run (k + 1) s = core.run k s' := by
  have hstep : core.step s = .next s' := h
  simp only [Host.Core.run, hstep]

/-- A simulation: the relation is kept by every step, so by every number of steps. -/
theorem run_indistinguishable (k : Nat) {s t : State} (h : Indistinguishable s t) :
    ∃ s' t' : State, core.run k s = .next s' ∧ core.run k t = .next t' ∧ Indistinguishable s' t' := by
  induction k generalizing s t with
  | zero => exact ⟨s, t, rfl, rfl, h⟩
  | succ k ih =>
    obtain ⟨s₁, t₁, hs, ht, h₁⟩ := step_indistinguishable h
    rw [core_run_succ hs, core_run_succ ht]
    exact ih h₁

/-- What the ports and `INITIALISED` show of two indistinguishable voices. -/
theorem Indistinguishable.observations {s t : State} (h : Indistinguishable s t) :
    s.responses = t.responses ∧ s.trace = t.trace ∧ (s.initialised = true → s = t) := by
  rcases indistinguishable_iff.mp h with rfl | halike
  · exact ⟨rfl, rfl, fun _ => rfl⟩
  · exact ⟨halike.responses, halike.trace, fun hs => absurd (halike.left.symm.trans hs) Bool.false_ne_true⟩

/-- Settles O40: indistinguishability is kept along a run, and it shows the same ports. -/
theorem unspecifiedRegistersAreNeverObserved : Obligations.UnspecifiedRegistersAreNeverObserved := by
  unfold Obligations.UnspecifiedRegistersAreNeverObserved
  intro s t k h
  obtain ⟨s', t', hs, ht, h'⟩ := run_indistinguishable k h
  exact ⟨s', t', hs, ht, h', h'.observations⟩

end Sys2Proof.Machine
end

section
/-! PROOFS. Command streams at the port: the byte-wide transport (R57), the decoding of whole and of cut-short commands
(R58, R70 to R74), and the execution of a stream of commands in the order it arrives (R62 to R64). -/

namespace Sys2Proof

/-! ### Bytes and words (R57) -/

theorem wordOfBytes_of_word (w : Word) :
    wordOfBytes (w.extractLsb' 0 8) (w.extractLsb' 8 8) (w.extractLsb' 16 8) (w.extractLsb' 24 8) = w := by
  ext i hi
  rw [← BitVec.getLsbD_eq_getElem]
  by_cases h8 : i < 8
  · simp [wordOfBytes, hi, h8, show i < 16 by omega, show i < 24 by omega]
  by_cases h16 : i < 16
  · simp [wordOfBytes, hi, h8, h16, show i < 24 by omega, show i - 8 < 8 by omega, show 8 + (i - 8) = i by omega]
  by_cases h24 : i < 24
  · simp [wordOfBytes, hi, h8, h16, h24, show ¬ i - 8 < 8 by omega, show i - 16 < 8 by omega,
      show 16 + (i - 16) = i by omega]
  · simp [wordOfBytes, hi, h8, h16, h24, show ¬ i - 8 < 8 by omega, show ¬ i - 16 < 8 by omega,
      show i - 24 < 8 by omega, show 24 + (i - 24) = i by omega]

theorem deserialise_bytesOfWord_append (w : Word) (bs : List Byte) :
    deserialise (bytesOfWord w ++ bs) = w :: deserialise bs :=
  congrArg (· :: deserialise bs) (wordOfBytes_of_word w)

theorem deserialise_serialise (ws : List Word) : deserialise (serialise ws) = ws := by
  induction ws with
  | nil => rfl
  | cons w ws ih =>
    calc deserialise (bytesOfWord w ++ serialise ws) = w :: deserialise (serialise ws) :=
          deserialise_bytesOfWord_append w _
      _ = w :: ws := by rw [ih]

/-! ### The words of a command (R70 to R74, R78) -/

/-- The words of a well-formed command: a header that selects a row, and as many operand words as the row asks for, which
the row assembles to the command. -/
theorem encode_eq_header_operands {i : Instr} (hi : WellFormed i) :
    ∃ h ops r, encode i = h :: ops ∧ selectRow h = some r ∧ ops.length = r.operands ∧
      ∀ rest, takeOperands r.mnemonic h (ops ++ rest) = .command i rest := by
  cases i with
  | init => exact ⟨_, _, _, rfl, selectRow_init, rfl, fun _ => rfl⟩
  | sett => exact ⟨_, _, _, rfl, selectRow_sett, rfl, fun _ => rfl⟩
  | sets => exact ⟨_, _, _, rfl, selectRow_sets, rfl, fun _ => rfl⟩
  | detune => exact ⟨_, _, _, rfl, selectRow_detune, rfl, fun _ => rfl⟩
  | proc => exact ⟨_, _, _, rfl, selectRow_proc, rfl, fun _ => rfl⟩
  | rdsr idx => exact ⟨_, _, _, rfl, selectRow_rdsr idx hi, rfl, fun _ => by simp [takeOperands]⟩
  | isat => exact ⟨_, _, _, rfl, selectRow_isat, rfl, fun _ => rfl⟩

theorem decode_encode_append {i : Instr} (hi : WellFormed i) (rest : List Word) :
    decode (encode i ++ rest) = .command i rest := by
  obtain ⟨h, ops, r, henc, hrow, _, htake⟩ := encode_eq_header_operands hi
  rw [henc, List.cons_append, decode_of_row _ hrow, htake]

/-- A row with fewer operand words than it asks for yields nothing. -/
theorem takeOperands_of_short {r : OpcodeRow} (hr : r ∈ opcodeTable) (h : Word) {ws : List Word}
    (hlen : ws.length < r.operands) : takeOperands r.mnemonic h ws = .incomplete := by
  simp only [opcodeTable, List.mem_cons, List.not_mem_nil, or_false] at hr
  rcases hr with rfl | rfl | rfl | rfl | rfl | rfl | rfl
  · match ws with
    | [] | [_] | [_, _] | [_, _, _] | [_, _, _, _] => rfl
  · match ws with
    | [] => rfl
  · match ws with
    | [] => rfl
  · match ws with
    | [] => rfl
  · match ws with
    | [] | [_] | [_, _] => rfl
  · exact absurd hlen (Nat.not_lt_zero _)
  · exact absurd hlen (Nat.not_lt_zero _)

/-- Settles O3: the bytes give the words back, and the words decode. -/
theorem commandSurvivesByteTransport : Obligations.CommandSurvivesByteTransport := by
  unfold Obligations.CommandSurvivesByteTransport
  intro i hi
  rw [decodeBytes, deserialise_serialise, ← List.append_nil (encode i), decode_encode_append hi]

/-- Settles O6: no word is no command, and a header selects a row that asks for more operand words than have arrived. -/
theorem commandIsIncompleteUntilItsLastWord : Obligations.CommandIsIncompleteUntilItsLastWord := by
  unfold Obligations.CommandIsIncompleteUntilItsLastWord
  intro i k hi hk
  obtain ⟨h, ops, r, henc, hrow, hlen, _⟩ := encode_eq_header_operands hi
  rw [henc] at hk ⊢
  cases k with
  | zero => rfl
  | succ k =>
    have hshort : (ops.take k).length < r.operands := by
      simp only [List.length_cons, List.length_take] at hk ⊢
      omega
    rw [List.take_succ_cons, decode_of_row _ hrow, takeOperands_of_short (List.mem_of_find?_eq_some hrow) h hshort]

end Sys2Proof

namespace Sys2Proof.Machine

/-! ### What waits at the port is no part of a command's meaning (R62) -/

/-- A state update that neither reads nor writes the inputs that wait at the port. -/
def IgnoresInputs (f : State → State) : Prop :=
  ∀ (s : State) (waiting : List InputEvent), f { s with inputs := waiting } = { f s with inputs := waiting }

theorem ignoresInputs_raise (r : Rejection) (number : BitVec 8) : IgnoresInputs (raise r number) := fun _ _ => rfl

section
variable {f : State → State} (hf : IgnoresInputs f)
include hf

theorem IgnoresInputs.whenInitialised : IgnoresInputs (Machine.whenInitialised · f) := by
  intro s waiting
  change Machine.whenInitialised { s with inputs := waiting } f = { Machine.whenInitialised s f with inputs := waiting }
  rcases Bool.eq_false_or_eq_true s.initialised with h | h
  · rw [whenInitialised_of_true (s := { s with inputs := waiting }) h, whenInitialised_of_true h, hf]
  · rw [whenInitialised_of_false (s := { s with inputs := waiting }) h, whenInitialised_of_false h, ignoresInputs_raise]

theorem IgnoresInputs.whenValid (ok : Bool) (number : BitVec 8) :
    IgnoresInputs (Machine.whenValid ok number · f) := by
  cases ok with
  | false => exact ignoresInputs_raise _ _
  | true => exact hf

end

/-- The meaning of every command is an update of the state that ignores the inputs. -/
theorem exec_ignoresInputs (i : Instr) : ∃ f, IgnoresInputs f ∧ ∀ s, exec i s = .next (f s) := by
  cases i with
  | init n fstart fs flfo d =>
    refine ⟨_, ?_, fun _ => rfl⟩
    cases initOffence n fstart fs flfo d with
    | some number => exact ignoresInputs_raise _ _
    | none => exact fun _ _ => rfl
  | sett | sets | detune | proc =>
    exact ⟨_, .whenInitialised (.whenValid (fun _ _ => rfl) _ _), fun _ => rfl⟩
  | rdsr idx =>
    refine ⟨_, ?_, fun _ => rfl⟩
    cases statusRegOf idx with
    | none => exact ignoresInputs_raise _ _
    | some r => cases r with
      | status => exact fun _ _ => rfl
      | _ => exact .whenInitialised fun _ _ => rfl
  | isat => exact ⟨_, .whenInitialised fun _ _ => rfl, fun _ => rfl⟩

/-! ### A stream of commands is executed in order (R62 to R64) -/

@[simp] theorem presentCommands_cons (c : Instr) (cs : List Instr) :
    presentCommands (c :: cs) = presentWords (encode c) ++ presentCommands cs := by
  simp [presentCommands]

theorem drop_commandLength_presentWords_encode (i : Instr) (later : List InputEvent) :
    (presentWords (encode i) ++ later).drop (commandLength i) = later := by
  cases i <;> rfl

/-- A command at the front of the port is executed, and what is presented after it stays. -/
theorem step_presentWords_encode {i : Instr} (hi : WellFormed i) (s : State) (later : List InputEvent) :
    step { s with inputs := presentWords (encode i) ++ later } = exec i { s with inputs := later } := by
  simp only [step, fetch, wordsBeforeReset_presentWords, decode_encode_append hi,
    drop_commandLength_presentWords_encode]

theorem execAll_cons {i : Instr} {s t : State} (h : exec i s = .next t) (cs : List Instr) :
    execAll (i :: cs) s = execAll cs t := by
  simp only [execAll, h]

/-- The machine as executor of a stream: as many steps as commands, each command on the state the ones before it left. -/
theorem run_presentCommands {cs : List Instr} (hcs : ∀ i ∈ cs, WellFormed i) (s : State) (following : List InputEvent) :
    ∃ t, execAll cs { s with inputs := following } = .next t ∧
      core.run cs.length { s with inputs := presentCommands cs ++ following } = .next t := by
  induction cs generalizing s with
  | nil => exact ⟨_, rfl, rfl⟩
  | cons c cs ih =>
    obtain ⟨hc, hrest⟩ := List.forall_mem_cons.mp hcs
    obtain ⟨f, hf, hexec⟩ := exec_ignoresInputs c
    have hrun (waiting : List InputEvent) :
        exec c { s with inputs := waiting } = .next { f s with inputs := waiting } := by rw [hexec, hf]
    have hstep : step { s with inputs := presentCommands (c :: cs) ++ following } =
        .next { f s with inputs := presentCommands cs ++ following } := by
      rw [presentCommands_cons, List.append_assoc, step_presentWords_encode hc, hrun]
    obtain ⟨t, hall, hcore⟩ := ih hrest (f s)
    exact ⟨t, (execAll_cons (hrun following) cs).trans hall, (core_run_succ hstep cs.length).trans hcore⟩

theorem Merge.mem {a b c : List Instr} (h : Merge a b c) {i : Instr} (hi : i ∈ c) : i ∈ a ∨ i ∈ b := by
  induction h with
  | nil => cases hi
  | left j _ ih | right j _ ih =>
    simp only [List.mem_cons] at hi ⊢
    tauto

/-- Settles O14: the commands of a merge are those of the two streams, so they are well formed. -/
theorem mergedStreamsRunInOrder : Obligations.MergedStreamsRunInOrder := by
  unfold Obligations.MergedStreamsRunInOrder
  intro a b c s following hmerge ha hb
  exact run_presentCommands (fun i hi => (hmerge.mem hi).elim (ha i) (hb i)) s following

end Sys2Proof.Machine
end

section
/-! PROOFS. The encoding as a whole (R69 to R78, R85, R91, R93): one reading per stream of words, the illegal headers, the
opcode map; and the responses of commands, with the rejections each can have (R79 to R81, R86, R223). -/

namespace Sys2Proof

/-! ### From a reading back to its words (R70 to R74, R78) -/

/-- The opcode of each mnemonic (R74). -/
def mnemonicOpcode : Mnemonic → BitVec 8
  | .INIT => 0x01
  | .SETT => 0x02
  | .SETS => 0x03
  | .DETUNE => 0x04
  | .PROC => 0x08
  | .RDSR => 0x10
  | .ISAT => 0x11

/-- The index byte a mnemonic admits in its header: a defined one for RDSR, zero for the others (R72). -/
def AdmitsIndex (m : Mnemonic) (idx : BitVec 8) : Prop := if m = .RDSR then definedIndex idx = true else idx = 0

theorem admitsIndex_rdsr {idx : BitVec 8} : AdmitsIndex .RDSR idx ↔ definedIndex idx = true := by simp [AdmitsIndex]

theorem admitsIndex_of_ne {m : Mnemonic} {idx : BitVec 8} (hm : m ≠ .RDSR) : AdmitsIndex m idx ↔ idx = 0 := by
  simp [AdmitsIndex, hm]

/-- A selected row fixes the header up to its index, and admits that index. -/
theorem header_of_selectRow {h : Word} {r : OpcodeRow} (hs : selectRow h = some r) :
    h = encodeHeader (headerIdx h) (mnemonicOpcode r.mnemonic) ∧ AdmitsIndex r.mnemonic (headerIdx h) := by
  rcases selectRow_cases hs with ⟨hm, rfl⟩ | ⟨hm, rfl⟩ | ⟨hm, rfl⟩ | ⟨hm, rfl⟩ | ⟨hm, rfl⟩ | ⟨hm, hidx, hh⟩ | ⟨hm, rfl⟩ <;>
    rw [hm]
  pick_goal 6
  · exact ⟨hh, admitsIndex_rdsr.mpr hidx⟩
  all_goals
    rw [headerIdx_encodeHeader]
    exact ⟨rfl, rfl⟩

/-- An opcode with an index its mnemonic admits is a header the map selects. -/
theorem exists_selectRow (m : Mnemonic) {idx : BitVec 8} (hidx : AdmitsIndex m idx) :
    ∃ r, selectRow (encodeHeader idx (mnemonicOpcode m)) = some r := by
  by_cases hm : m = .RDSR
  · subst hm
    exact ⟨_, selectRow_rdsr idx (admitsIndex_rdsr.mp hidx)⟩
  · obtain rfl := (admitsIndex_of_ne hm).mp hidx
    cases m with
    | INIT => exact ⟨_, selectRow_init⟩
    | SETT => exact ⟨_, selectRow_sett⟩
    | SETS => exact ⟨_, selectRow_sets⟩
    | DETUNE => exact ⟨_, selectRow_detune⟩
    | PROC => exact ⟨_, selectRow_proc⟩
    | RDSR => exact absurd rfl hm
    | ISAT => exact ⟨_, selectRow_isat⟩

/-- The map selects a row exactly for the headers made of an opcode and an index its mnemonic admits. -/
theorem selectRow_isSome_iff (h : Word) :
    (selectRow h).isSome ↔ ∃ m, h = encodeHeader (headerIdx h) (mnemonicOpcode m) ∧ AdmitsIndex m (headerIdx h) := by
  refine ⟨fun hs => ?_, fun ⟨m, hh, hidx⟩ => ?_⟩
  · obtain ⟨r, hr⟩ := Option.isSome_iff_exists.mp hs
    exact ⟨r.mnemonic, header_of_selectRow hr⟩
  · rw [hh]
    exact Option.isSome_iff_exists.mpr (exists_selectRow m hidx)

/-- What a mnemonic assembles from the operand words is encoded as its header and the words taken, and is well formed where
its index is admitted. -/
theorem encode_of_takeOperands {m : Mnemonic} {h : Word} {ws rest : List Word} {i : Instr}
    (hd : takeOperands m h ws = .command i rest) (hidx : AdmitsIndex m (headerIdx h)) :
    WellFormed i ∧ encode i ++ rest = encodeHeader (headerIdx h) (mnemonicOpcode m) :: ws := by
  unfold takeOperands at hd
  split at hd <;> cases hd
  pick_goal 6
  · exact ⟨admitsIndex_rdsr.mp hidx, rfl⟩
  all_goals
    rw [(admitsIndex_of_ne (by decide)).mp hidx]
    exact ⟨rfl, rfl⟩

/-- Settles O1: the header of a command selects its row, and the row takes the command's operand words only. -/
theorem decodeOfEncodeIsTheCommand : Obligations.DecodeOfEncodeIsTheCommand := by
  unfold Obligations.DecodeOfEncodeIsTheCommand
  exact fun i rest hi => decode_encode_append hi rest

/-- Settles O2: the selected row gives back the header, and the operands taken give back the words after it. -/
theorem decodedCommandHasTheseWords : Obligations.DecodedCommandHasTheseWords := by
  unfold Obligations.DecodedCommandHasTheseWords
  intro ws rest i hd
  cases ws with
  | nil => cases hd
  | cons h ws =>
    cases hs : selectRow h with
    | none => rw [decode_of_none ws hs] at hd; cases hd
    | some r =>
      rw [decode_of_row ws hs] at hd
      obtain ⟨hh, hidx⟩ := header_of_selectRow hs
      obtain ⟨hi, hwords⟩ := encode_of_takeOperands hd hidx
      exact ⟨hi, by rw [hwords, ← hh]⟩

/-! ### Illegal headers (R72, R85) -/

/-- A row that is selected yields a command or asks for more words, so the illegal headers are those that select none. -/
theorem decode_illegal_iff (h : Word) (rest : List Word) :
    (∃ why, decode (h :: rest) = .illegal why rest) ↔ selectRow h = none := by
  refine ⟨fun ⟨why, hd⟩ => ?_, fun hs => ⟨_, decode_of_none rest hs⟩⟩
  cases hs : selectRow h with
  | none => rfl
  | some r =>
    rw [decode_of_row rest hs] at hd
    unfold takeOperands at hd
    split at hd <;> cases hd

theorem mem_opcodes_iff (opc : BitVec 8) :
    opc ∈ ([0x01, 0x02, 0x03, 0x04, 0x08, 0x10, 0x11] : List (BitVec 8)) ↔ ∃ m, opc = mnemonicOpcode m := by
  refine ⟨fun h => ?_, ?_⟩
  · simp only [List.mem_cons, List.not_mem_nil, or_false] at h
    rcases h with rfl | rfl | rfl | rfl | rfl | rfl | rfl
    exacts [⟨.INIT, rfl⟩, ⟨.SETT, rfl⟩, ⟨.SETS, rfl⟩, ⟨.DETUNE, rfl⟩, ⟨.PROC, rfl⟩, ⟨.RDSR, rfl⟩, ⟨.ISAT, rfl⟩]
  · rintro ⟨m, rfl⟩
    cases m <;> decide

theorem mnemonicOpcode_eq_rdsr (m : Mnemonic) : mnemonicOpcode m = 0x10 ↔ m = .RDSR := by
  cases m <;> decide

theorem definedIndex_iff (idx : BitVec 8) : definedIndex idx = true ↔
    idx.toNat ≤ 0x06 ∨ idx.toNat = 0x08 ∨ (0x10 ≤ idx.toNat ∧ idx.toNat ≤ 0x2F) := by
  simp [definedIndex, or_assoc]

/-- A header selects a row exactly when each of its three fields is as R71, R72 and R74 ask. -/
theorem selectRow_isSome_iff_fields (h : Word) : (selectRow h).isSome ↔
    headerRsv h = 0 ∧ (∃ m, headerOpc h = mnemonicOpcode m) ∧
      (headerOpc h ≠ 0x10 → headerIdx h = 0) ∧ (headerOpc h = 0x10 → definedIndex (headerIdx h) = true) := by
  rw [selectRow_isSome_iff]
  refine ⟨fun ⟨m, hh, hidx⟩ => ?_, fun ⟨hr, ⟨m, hm⟩, hother, hrdsr⟩ => ⟨m, hm ▸ header_of_fields h hr, ?_⟩⟩
  · have hopc : headerOpc h = mnemonicOpcode m := by rw [hh, headerOpc_encodeHeader]
    refine ⟨by rw [hh, headerRsv_encodeHeader], ⟨m, hopc⟩, fun hne => ?_, fun heq => ?_⟩
    · exact (admitsIndex_of_ne (mt (mnemonicOpcode_eq_rdsr m).mpr (hopc ▸ hne))).mp hidx
    · obtain rfl := (mnemonicOpcode_eq_rdsr m).mp (hopc ▸ heq)
      exact admitsIndex_rdsr.mp hidx
  · rw [hm, Ne, mnemonicOpcode_eq_rdsr] at hother
    rw [hm, mnemonicOpcode_eq_rdsr] at hrdsr
    by_cases hR : m = .RDSR
    · exact hR ▸ admitsIndex_rdsr.mpr (hrdsr hR)
    · exact (admitsIndex_of_ne hR).mpr (hother hR)

/-- Settles O4: illegal is to select no row, and each field that is not as a row asks is one of the four kinds. -/
theorem illegalHeadersAreExactlyThese : Obligations.IllegalHeadersAreExactlyThese := by
  unfold Obligations.IllegalHeadersAreExactlyThese
  refine ⟨fun h rest => ?kinds, fun rest => (decode_illegal_iff _ rest).mpr (by decide)⟩
  case kinds =>
    rw [decode_illegal_iff, ← Option.not_isSome_iff_eq_none, selectRow_isSome_iff_fields, mem_opcodes_iff,
      ← definedIndex_iff]
    tauto

/-! ### The opcode map and written-out words (R74, R83) -/

/-- What a word has under two masks at once it has under each of them, whichever is taken first. -/
theorem patterns_agree_of_overlap {h mask pattern mask' pattern' : Word} (hp : h &&& mask = pattern)
    (hp' : h &&& mask' = pattern') : pattern &&& mask' = pattern' &&& mask := by
  rw [← hp, ← hp', BitVec.and_assoc, BitVec.and_assoc, BitVec.and_comm mask]

/-- Settles O5: two rows that overlap have patterns that agree where both masks look, and no two rows of the map do. -/
theorem opcodeRowsDoNotOverlap : Obligations.OpcodeRowsDoNotOverlap := by
  unfold Obligations.OpcodeRowsDoNotOverlap
  have hdiffer : opcodeTable.Pairwise (fun r q => r.pattern &&& q.mask ≠ q.pattern &&& r.mask) := by decide
  exact hdiffer.imp fun hne h ⟨hr, hq⟩ => hne (patterns_agree_of_overlap hr hq)

/-- Settles O7: the words written out are the encodings of well-formed commands. -/
theorem writtenOutWordsDecode : Obligations.WrittenOutWordsDecode := by
  unfold Obligations.WrittenOutWordsDecode
  have reads {i : Instr} {ws : List Word} (hi : WellFormed i) (hw : encode i ++ [] = ws) : decode ws = .command i [] :=
    hw ▸ decode_encode_append hi []
  exact ⟨reads rfl rfl, reads rfl rfl, reads rfl rfl, reads rfl rfl, reads rfl rfl, reads rfl rfl, reads rfl rfl⟩

end Sys2Proof

namespace Sys2Proof.Machine

/-! ### Lines of the assembler (R88 to R93) -/

/-- The words of a text are those of the commands it is read as (R91). -/
theorem assembleWords_of_program {text : List Char} {is : List Instr} (h : assembleProgram text = some is) :
    assembleWords text = some (is.flatMap encode) := by
  rw [assembleWords, h, Option.map_some]

/-- A four-operand INIT takes the default detune, and the comment is no part of the line (R88, R93). -/
theorem assembleProgram_init_line : assembleProgram "INIT 1, 400, 48000, 1 ; default detune".toList =
    some [.init 1 0x43C80000 0x473B8000 0x3F800000 Config.defaultDetuneHz] := by decide +kernel

theorem assembleProgram_proc_line : assembleProgram "PROC 1, 0.08, 0.5".toList =
    some [.proc 0x3F800000 0x3DA3D70A 0x3F000000] := by decide +kernel

theorem assembleProgram_rdst_line : assembleProgram "RDST".toList = some [.rdsr 0x00] := by decide +kernel

theorem assembleProgram_rdsr_line : assembleProgram "RDSR DETUNE_OFFSET[2]".toList = some [.rdsr 0x12] := by
  decide +kernel

/-- Settles O8: each line is read as one command, and its words are that command's encoding. -/
theorem assemblerLinesGiveTheseWords : Obligations.AssemblerLinesGiveTheseWords := by
  unfold Obligations.AssemblerLinesGiveTheseWords
  exact ⟨assembleWords_of_program assembleProgram_init_line, assembleWords_of_program assembleProgram_proc_line,
    assembleWords_of_program assembleProgram_rdst_line, assembleWords_of_program assembleProgram_rdsr_line⟩

/-! ### An illegal header at the port (R86) -/

/-- A header that selects no row is taken alone, whatever waits after it. -/
theorem fetch_of_selectRow_none {h : Word} (hs : selectRow h = none) (following : List InputEvent) :
    fetch (.word h :: following) = .illegal following := by
  simp only [fetch, wordsBeforeReset, decode_of_none _ hs, List.drop_succ_cons, List.drop_zero]

theorem responseOf_illegalCommand : responseOf (rejectionCode .illegalCommand) 0 0 = ⟨0x00000003, 0x00000000⟩ := by
  decide

/-- Settles O10: whether a header is illegal does not depend on the words after it, and a rejection only responds. -/
theorem illegalHeaderIsOneWordRejected : Obligations.IllegalHeaderIsOneWordRejected := by
  unfold Obligations.IllegalHeaderIsOneWordRejected
  intro s h following why hinputs hd
  have hs : selectRow h = none := (decode_illegal_iff h []).mp ⟨why, hd⟩
  rw [step, hinputs, fetch_of_selectRow_none hs, ← responseOf_illegalCommand]
  rfl

/-! ### The response of a command (R79 to R82) -/

/-- Bits 31:16 of `r0` are zero: INFO and STATUS are a byte each. -/
theorem responseOf_upper_bits (status info : BitVec 8) (value : Word) :
    (responseOf status info value).r0.extractLsb' 16 16 = 0 := headerRsv_encodeHeader info status

theorem rejectionCode_mem (r : Rejection) : rejectionCode r ∈ ([0, 1, 2, 3] : List (BitVec 8)) := by
  cases r <;> decide

/-- Settles O27: rejected or accepted, a command appends one response, made by `responseOf`. -/
theorem oneResponsePerCommand : Obligations.OneResponsePerCommand := by
  unfold Obligations.OneResponsePerCommand
  intro i s
  rcases exec_cases i s with ⟨r, number, _, he⟩ | ⟨v, t, ha, he⟩
  · refine ⟨_, _, he, raise_responses s r number, ?_, responseOf_upper_bits _ _ _⟩
    rw [responseStatus_responseOf]
    exact rejectionCode_mem r
  · refine ⟨_, _, he, (accept_responses t v).trans (by rw [accepts_responses ha]), ?_, responseOf_upper_bits _ _ _⟩
    rw [responseStatus_responseOf]
    decide

/-! ### The rejections of each command (R223) -/

/-- The response of a command that has been executed: a rejection's, or the one of acceptance. -/
theorem response_cases {i : Instr} {s t : State} {r : Response} (h : exec i s = .next t)
    (ht : t.responses = s.responses ++ [r]) :
    (∃ why number, Rejects i s why number ∧ r = responseOf (rejectionCode why) number 0) ∨
      ∃ v, r = responseOf statusOk 0 v := by
  rcases exec_next_cases h with ⟨why, number, hr, rfl⟩ | ⟨v, u, ha, rfl⟩
  · rw [raise_responses] at ht
    exact .inl ⟨why, number, hr, (List.singleton_inj.mp (List.append_cancel_left ht)).symm⟩
  · rw [accept_responses, accepts_responses ha] at ht
    exact .inr ⟨v, (List.singleton_inj.mp (List.append_cancel_left ht)).symm⟩

/-- The number INIT reports is that of one of its five operands (R149). -/
theorem initOffence_mem {n : Word} {fstart fs flfo d : F32} {number : BitVec 8}
    (h : initOffence n fstart fs flfo d = some number) : number ∈ ([1, 2, 3, 4, 5] : List (BitVec 8)) := by
  unfold initOffence at h
  split_ifs at h <;> cases h <;> decide

/-- Settles O21: the rejections are gone through one by one; the reserved index is the one no well-formed command has. -/
theorem rejectionsOfEachCommand : Obligations.RejectionsOfEachCommand := by
  unfold Obligations.RejectionsOfEachCommand
  intro i s t r hi h ht
  rcases response_cases h ht with ⟨why, number, hr, rfl⟩ | ⟨v, rfl⟩ <;>
    rw [responseStatus_responseOf, responseInfo_responseOf]
  · cases hr with
    | init hn => exact ⟨by decide, fun hne => absurd rfl hne, fun _ => initOffence_mem hn⟩
    | sett | sets | detune | proc => exact ⟨by decide, fun hne => absurd rfl hne, fun _ => rfl⟩
    | settBefore | setsBefore | detuneBefore | procBefore | rdsrBefore | isatBefore =>
      exact ⟨by decide, fun _ => rfl, fun h1 => absurd h1 (by decide)⟩
    | rdsrReserved hr => exact absurd (((statusRegOf_eq_none _).mp hr).symm.trans hi) Bool.false_ne_true
  · exact ⟨by decide, fun _ => rfl, fun h1 => absurd h1 (by decide)⟩

end Sys2Proof.Machine
end

section
/-! PROOFS. Rounding to the nearest f32 (R98) and the finite sums, products and quotients made with it (R99 to R101): a
rounded magnitude is nearest to the exact one, the sign of the exact result carries that to signed values, and each of the
three operations is that rounding with its own divisor. -/

namespace Sys2Proof.Machine

/-! ### The nearest magnitude (R98) -/

/-- A finite rounded magnitude is the lower or the upper neighbour of the quotient, each where it is the nearer one, and at
equal distance the one that is even. -/
theorem roundMag_neighbours {num den : Nat} (hd : 0 < den) (hfin : roundMag num den < infPattern) :
    ∃ p, magnitude p * den ≤ num ∧ num < magnitude (p + 1) * den ∧
      (roundMag num den = p ∧ 2 * num ≤ magnitude p * den + magnitude (p + 1) * den ∨
        roundMag num den = p + 1 ∧ magnitude p * den + magnitude (p + 1) * den ≤ 2 * num) ∧
      (2 * num = magnitude p * den + magnitude (p + 1) * den → roundMag num den % 2 = 0) := by
  obtain ⟨p, hlow, hhigh, hround⟩ := roundMag_spec num hd
  rw [Nat.add_mul] at hround
  exact ⟨p, hlow, hhigh, by omega, by omega⟩

/-- A rounded magnitude that is finite is nearest to the exact one among all patterns, and where another pattern is equally
near it is even. -/
theorem roundMag_nearest {num den : Nat} (hd : 0 < den) (hfin : roundMag num den < infPattern) (q : Nat) :
    ((magnitude (roundMag num den) * den : Nat) - num : Int).natAbs ≤ ((magnitude q * den : Nat) - num : Int).natAbs ∧
      (((magnitude (roundMag num den) * den : Nat) - num : Int).natAbs = ((magnitude q * den : Nat) - num : Int).natAbs →
        q ≠ roundMag num den → roundMag num den % 2 = 0) := by
  obtain ⟨p, hlow, hhigh, hround, htie⟩ := roundMag_neighbours hd hfin
  have hmono {i j : Nat} (h : i < j) : magnitude i * den < magnitude j * den :=
    Nat.mul_lt_mul_of_pos_right (magnitude_lt_iff.mpr h) hd
  rcases hround with ⟨hr, hnear⟩ | ⟨hr, hnear⟩ <;> rw [hr] at htie ⊢
  all_goals
    obtain hq | rfl | rfl | hq : q < p ∨ q = p ∨ q = p + 1 ∨ p + 1 < q := by omega
    · have := hmono hq
      omega
    · omega
    · omega
    · have := hmono hq
      omega

@[simp] theorem roundMag_zero {den : Nat} (hd : 0 < den) : roundMag 0 den = 0 := by
  simpa using roundMag_magnitude (p := 0) hd (by decide)

/-! ### The nearest value -/

/-- `x / d` rounded once, with the sign `neg`: what every sum, product and quotient of finite values is. -/
def rounded (neg : Bool) (x d : Int) : F32 := packF32 neg (roundMag x.natAbs d.natAbs)

/-- No value is nearer to `x / d` than `r`, compared after multiplication by `d`, and where another is equally near the last
bit of `r` is even. -/
def IsNearest (r : F32) (x d : Int) : Prop :=
  ∀ c : F32, (value r * d - x).natAbs ≤ (value c * d - x).natAbs ∧
    ((value r * d - x).natAbs = (value c * d - x).natAbs → value c ≠ value r → magPattern r % 2 = 0)

section
variable {neg : Bool} {x d : Int}

@[simp] theorem magPattern_rounded : magPattern (rounded neg x d) = roundMag x.natAbs d.natAbs :=
  magPattern_packF32 (roundMag_lt _ _)

@[simp] theorem signBit_rounded : signBit (rounded neg x d) = neg := signBit_packF32 (roundMag_lt _ _)

@[simp] theorem isNaN_rounded : isNaN (rounded neg x d) = false := by
  simpa [isNaN] using roundMag_le x.natAbs d.natAbs

theorem finite_rounded : finite (rounded neg x d) = true ↔ roundMag x.natAbs d.natAbs < infPattern := by simp [finite]

/-- Rounding overflows exactly from the largest finite magnitude and half its last place on (R98). -/
theorem isInf_rounded (hd : d ≠ 0) :
    isInf (rounded neg x d) = true ↔ (2 ^ 25 - 1) * 2 ^ 252 * d.natAbs ≤ x.natAbs := by
  rw [isInf, magPattern_rounded, beq_iff_eq, roundMag_eq_inf (Int.natAbs_pos.mpr hd)]

/-- Two integers on one side of zero are as far apart as their magnitudes. -/
theorem natAbs_sub_of_mul_nonneg {y x : Int} (h : 0 ≤ y * x) :
    (y - x).natAbs = ((y.natAbs : Int) - x.natAbs).natAbs := by
  rcases mul_nonneg_iff.mp h with ⟨hy, hx⟩ | ⟨hy, hx⟩ <;> omega

theorem natAbs_natAbs_sub_natAbs_le (y x : Int) : ((y.natAbs : Int) - x.natAbs).natAbs ≤ (y - x).natAbs := by omega

/-- Zero alone is equally far from a value other than zero and from its mirror image. -/
theorem eq_zero_of_equidistant_mirror {y z x : Int} (hside : 0 ≤ y * x) (heq : (y - x).natAbs = (z - x).natAbs)
    (habs : z.natAbs = y.natAbs) (hne : y ≠ z) : x = 0 := by
  rcases mul_nonneg_iff.mp hside with ⟨hy, hx⟩ | ⟨hy, hx⟩ <;> omega

/-- A rounded value multiplied by the divisor lies on the side of zero on which the exact one lies. -/
theorem value_rounded_mul_nonneg (hsign : if neg then x * d ≤ 0 else 0 ≤ x * d) : 0 ≤ value (rounded neg x d) * d * x := by
  rw [mul_assoc, mul_comm d x]
  cases neg with
  | true =>
    rw [value_neg signBit_rounded]
    exact mul_nonneg_of_nonpos_of_nonpos (by omega) hsign
  | false =>
    rw [value_nonneg signBit_rounded]
    exact mul_nonneg (by omega) hsign

/-- A rounded value is nearest to the exact one when it has its sign: on the exact one's side of zero the distances are those
of the magnitudes, on the other side they are larger. -/
theorem isNearest_rounded (hd : d ≠ 0) (hsign : if neg then x * d ≤ 0 else 0 ≤ x * d)
    (hfin : finite (rounded neg x d) = true) : IsNearest (rounded neg x d) x d := by
  intro c
  have hdpos := Int.natAbs_pos.mpr hd
  obtain ⟨hle, htie⟩ := roundMag_nearest hdpos (finite_rounded.mp hfin) (magPattern c)
  have hside := value_rounded_mul_nonneg hsign
  have habs (v : F32) : (value v * d).natAbs = magnitude (magPattern v) * d.natAbs := by
    rw [Int.natAbs_mul, natAbs_value]
  have hr := habs (rounded neg x d)
  have hc := habs c
  rw [magPattern_rounded] at hr ⊢
  rw [← hr, ← hc, ← natAbs_sub_of_mul_nonneg hside] at hle htie
  have hfar := natAbs_natAbs_sub_natAbs_le (value c * d) x
  refine ⟨hle.trans hfar, fun heq hne => ?_⟩
  by_cases hmag : magPattern c = roundMag x.natAbs d.natAbs
  case neg => exact htie (le_antisymm hle (heq ▸ hfar)) hmag
  case pos =>
    have hy : value (rounded neg x d) * d ≠ value c * d := fun h => hne (mul_right_cancel₀ hd h).symm
    rw [hmag, ← hr] at hc
    have hx : x = 0 := eq_zero_of_equidistant_mirror hside heq hc hy
    simp [hx, hdpos]

end

/-! ### Sums, products and quotients of finite values (R99 to R101) -/

section
variable {a b : F32}

theorem fadd_eq_rounded (ha : finite a = true) (hb : finite b = true) :
    fadd a b = rounded (if value a + value b = 0 then signBit a && signBit b else decide (value a + value b < 0))
      (value a + value b) 1 := fadd_of_finite ha hb

theorem natAbs_two_pow (n : Nat) : ((2 : Int) ^ n).natAbs = 2 ^ n := Int.natAbs_pow 2 n

theorem fmul_eq_rounded (ha : finite a = true) (hb : finite b = true) :
    fmul a b = rounded (signBit a != signBit b) (value a * value b) (2 ^ 149) := by
  rw [fmul_of_finite ha hb, rounded, Int.natAbs_mul, natAbs_value, natAbs_value, natAbs_two_pow]

theorem fdiv_eq_rounded (ha : finite a = true) (hb : finite b = true) (h0 : isZero b = false) :
    fdiv a b = rounded (signBit a != signBit b) (value a * 2 ^ 149) (value b) := by
  rw [fdiv_of_finite ha hb h0, rounded, Int.natAbs_mul, natAbs_value, natAbs_value, natAbs_two_pow]

theorem value_ne_zero (h : isZero b = false) : value b ≠ 0 := fun hz => by simp [(value_eq_zero b).mp hz] at h

/-- The exclusive-or of the signs is the sign of the product. -/
theorem value_mul_value_sign (a b : F32) :
    if signBit a != signBit b then value a * value b ≤ 0 else 0 ≤ value a * value b := by
  cases ha : signBit a <;> cases hb : signBit b <;> simp [value, ha, hb, mul_nonneg]

end

/-- The sign a sum is given is that of the exact sum; an exact zero may have either. -/
theorem sum_sign (z : Int) (bothNegative : Bool) :
    if (if z = 0 then bothNegative else decide (z < 0)) then z ≤ 0 else 0 ≤ z := by
  rcases Int.lt_trichotomy z 0 with h | h | h
  · simp [h, h.ne, h.le]
  · simp [h]
  · simp [h.ne', h.le, h.not_gt]

/-- Settles O41: the sum is the exact sum rounded, its sign that of the exact sum. -/
theorem sumIsTheNearestValue : Obligations.SumIsTheNearestValue := by
  unfold Obligations.SumIsTheNearestValue
  intro a b c ha hb _ hfin
  rw [fadd_eq_rounded ha hb] at hfin ⊢
  have hsign := sum_sign (value a + value b) (signBit a && signBit b)
  simpa only [mul_one] using isNearest_rounded one_ne_zero (by simpa only [mul_one] using hsign) hfin c

/-- Settles O42: the sum overflows where rounding does, and an infinite sum is no exact zero, so it has the exact sign. -/
theorem sumOverflowsToInfinity : Obligations.SumOverflowsToInfinity := by
  unfold Obligations.SumOverflowsToInfinity
  intro a b ha hb
  rw [fadd_eq_rounded ha hb, isInf_rounded one_ne_zero, signBit_rounded]
  refine ⟨by rw [Int.natAbs_one, mul_one], fun hinf => if_neg fun h0 => ?_, isNaN_rounded⟩
  rw [h0] at hinf
  exact absurd hinf (by norm_num)

/-- Settles O43: the product is the exact product rounded, its sign the exclusive-or of the signs. -/
theorem productIsTheNearestValue : Obligations.ProductIsTheNearestValue := by
  unfold Obligations.ProductIsTheNearestValue
  intro a b c ha hb _
  have hd : (2 ^ 149 : Int) ≠ 0 := by norm_num
  have hsign : if signBit a != signBit b then value a * value b * 2 ^ 149 ≤ 0 else 0 ≤ value a * value b * 2 ^ 149 := by
    have := value_mul_value_sign a b
    split_ifs at this ⊢ <;> omega
  rw [fmul_eq_rounded ha hb]
  refine ⟨signBit_rounded, isNaN_rounded, ?_, fun hfin => isNearest_rounded hd hsign hfin c⟩
  rw [isInf_rounded hd, natAbs_two_pow]

/-- Settles O44: the quotient is the exact quotient rounded, its sign the exclusive-or of the signs. -/
theorem quotientIsTheNearestValue : Obligations.QuotientIsTheNearestValue := by
  unfold Obligations.QuotientIsTheNearestValue
  intro a b c ha hb _ h0
  have hd := value_ne_zero h0
  have hsign : if signBit a != signBit b then value a * 2 ^ 149 * value b ≤ 0 else 0 ≤ value a * 2 ^ 149 * value b := by
    have := value_mul_value_sign a b
    rw [mul_right_comm]
    split_ifs at this ⊢ <;> omega
  rw [fdiv_eq_rounded ha hb h0]
  refine ⟨signBit_rounded, isNaN_rounded, ?_, fun hfin => isNearest_rounded hd hsign hfin c⟩
  rw [isInf_rounded hd, Int.natAbs_mul, natAbs_two_pow]

end Sys2Proof.Machine
end

section
/-! PROOFS. The operands that are not rounded (R99 to R101): what a NaN, an infinity or a zero gives in each operation, said
once per operation, and the special cases of sums, differences, products and quotients. -/

namespace Sys2Proof.Machine

/-! ### Classes -/

section
variable {a b : F32}

theorem magPattern_of_isInf (h : isInf a = true) : magPattern a = infPattern := by simpa [isInf] using h

theorem isNaN_of_isInf (h : isInf a = true) : isNaN a = false := by simp [isNaN, magPattern_of_isInf h]

theorem isZero_of_isInf (h : isInf a = true) : isZero a = false := by
  simp [isZero, magPattern_of_isInf h, infPattern]

theorem isInf_of_finite (h : finite a = true) : isInf a = false := ((finite_iff a).mp h).2

theorem isInf_of_isZero (h : isZero a = true) : isInf a = false := isInf_of_finite (finite_of_isZero h)

theorem isNaN_of_isZero (h : isZero a = true) : isNaN a = false := isNaN_of_finite (finite_of_isZero h)

theorem isNaN_nan : isNaN nan = true := by decide

@[simp] theorem isInf_packF32_infPattern (neg : Bool) : isInf (packF32 neg infPattern) = true := by
  simp [isInf, magPattern_packF32 (show infPattern < 2 ^ 31 by decide)]

@[simp] theorem signBit_packF32_infPattern (neg : Bool) : signBit (packF32 neg infPattern) = neg :=
  signBit_packF32 (by decide)

/-! ### Sums (R99) -/

theorem fadd_of_isInf_left (ha : isInf a = true) (hb : finite b = true) : fadd a b = a := by
  simp [fadd, isNaN_of_isInf ha, isNaN_of_finite hb, ha, isInf_of_finite hb]

theorem fadd_of_isInf_right (ha : finite a = true) (hb : isInf b = true) : fadd a b = b := by
  simp [fadd, isNaN_of_finite ha, isNaN_of_isInf hb, isInf_of_finite ha, hb]

/-- The exact zero difference of a value and itself is `+0.0`: the two have opposite signs. -/
theorem fsub_self_of_finite (ha : finite a = true) : fsub a a = f0 := by
  rw [fsub, fadd_of_finite ha ((finite_fneg a).trans ha), value_fneg, add_neg_cancel, if_pos rfl, signBit_fneg,
    Bool.and_not_self, Int.natAbs_zero, roundMag_zero Nat.one_pos]
  rfl

/-! ### Products and quotients (R100, R101) -/

theorem fmul_of_nan (h : isNaN a = true ∨ isNaN b = true) : fmul a b = nan := by
  unfold fmul
  rw [if_pos (by simpa using h)]

theorem fdiv_of_nan (h : isNaN a = true ∨ isNaN b = true) : fdiv a b = nan := by
  unfold fdiv
  rw [if_pos (by simpa using h)]

/-- A product with an infinite operand: an infinity, or a NaN when the other operand is a zero. -/
theorem fmul_of_isInf (ha : isNaN a = false) (hb : isNaN b = false) (h : isInf a = true ∨ isInf b = true) :
    fmul a b = if isZero a || isZero b then nan else packF32 (signBit a != signBit b) infPattern := by
  unfold fmul
  rw [if_neg (by simp [ha, hb]), if_pos (by simpa using h)]

theorem fdiv_of_isInf_left (ha : isInf a = true) (hb : isNaN b = false) :
    fdiv a b = if isInf b then nan else packF32 (signBit a != signBit b) infPattern := by
  simp [fdiv, isNaN_of_isInf ha, hb, ha]

theorem fdiv_of_isInf_right (ha : finite a = true) (hb : isInf b = true) :
    fdiv a b = packF32 (signBit a != signBit b) 0 := by
  simp [fdiv, isNaN_of_finite ha, isNaN_of_isInf hb, isInf_of_finite ha, hb]

/-- A finite value divided by a zero: an infinity, or a NaN when it is itself a zero. -/
theorem fdiv_of_isZero_right (ha : finite a = true) (hb : isZero b = true) :
    fdiv a b = if isZero a then nan else packF32 (signBit a != signBit b) infPattern := by
  simp [fdiv, isNaN_of_finite ha, isNaN_of_isZero hb, isInf_of_finite ha, isInf_of_isZero hb, hb]

end

/-- Settles O45: the cases of `fadd` that do not round, and the exact zero sums. -/
theorem specialSums : Obligations.SpecialSums := by
  unfold Obligations.SpecialSums
  refine ⟨fun a b h => ⟨?sumNaN, ?differenceNaN⟩, by decide +kernel, by decide +kernel, fun a b ha hb => ?infinite,
    fun x hx => fsub_self_of_finite hx, by decide +kernel, by decide +kernel⟩
  case sumNaN => rw [fadd_of_nan h, isNaN_nan]
  case differenceNaN => rw [fsub, fadd_of_nan (by rwa [isNaN_fneg]), isNaN_nan]
  case infinite =>
    exact ⟨fadd_of_isInf_left ha hb, fadd_of_isInf_right hb ha, fadd_of_isInf_left ha ((finite_fneg b).trans hb)⟩

/-- Settles O46: the cases of `fmul` and `fdiv` that do not round. -/
theorem specialProductsAndQuotients : Obligations.SpecialProductsAndQuotients := by
  unfold Obligations.SpecialProductsAndQuotients
  refine ⟨fun a b h => ⟨?productNaN, ?quotientNaN⟩, fun a b ha hb => ⟨?zeroTimesInf, ?infTimesZero⟩,
    fun a b ha hb h0 => ⟨?infTimes, ?timesInf⟩, fun a b h => ?invalidQuotient, fun a b ha h0 hb => ?byZero,
    fun a b ha hb => ?byInf⟩
  case productNaN => rw [fmul_of_nan h, isNaN_nan]
  case quotientNaN => rw [fdiv_of_nan h, isNaN_nan]
  case zeroTimesInf => simp [fmul_of_isInf (isNaN_of_isZero ha) (isNaN_of_isInf hb) (.inr hb), ha, isNaN_nan]
  case infTimesZero => simp [fmul_of_isInf (isNaN_of_isInf hb) (isNaN_of_isZero ha) (.inl hb), ha, isNaN_nan]
  case infTimes => simp [fmul_of_isInf (isNaN_of_isInf ha) hb (.inl ha), isZero_of_isInf ha, h0]
  case timesInf => simp [fmul_of_isInf hb (isNaN_of_isInf ha) (.inr ha), isZero_of_isInf ha, h0]
  case invalidQuotient =>
    rcases h with ⟨ha, hb⟩ | ⟨ha, hb⟩
    · rw [fdiv_of_isZero_right (finite_of_isZero ha) hb, if_pos ha, isNaN_nan]
    · rw [fdiv_of_isInf_left ha (isNaN_of_isInf hb), if_pos hb, isNaN_nan]
  case byZero => simp [fdiv_of_isZero_right ha hb, h0]
  case byInf => simp [fdiv_of_isInf_right ha hb, isZero]

end Sys2Proof.Machine
end

section
/-! PROOFS. The exact operations: the conversion of integers and the floor (R102), the unit Scaler of the machine (R115,
R183) and the ends of the shaper (R121). -/

namespace Sys2Proof.Machine

/-! ### Integers (R102) -/

/-- An integer of at most 24 bits is a magnitude: shifted left to 24 bits it is the significand. -/
theorem exists_magnitude_of_lt {n : Nat} (h : n < 2 ^ 24) : ∃ p < infPattern, magnitude p = n * 2 ^ 149 := by
  rcases Nat.eq_zero_or_pos n with rfl | hpos
  · exact ⟨0, by decide, by simp⟩
  obtain ⟨l, hl⟩ : ∃ l, l = Nat.log2 n := ⟨_, rfl⟩
  have hle : 2 ^ l ≤ n := hl ▸ Nat.log2_self_le hpos.ne'
  have hlt : n < 2 ^ (l + 1) := hl ▸ Nat.lt_log2_self
  have hl23 : l ≤ 23 := by
    have := (Nat.log2_lt hpos.ne').mpr h
    omega
  have hlow : 2 ^ 23 ≤ n * 2 ^ (23 - l) := by
    calc 2 ^ 23 = 2 ^ l * 2 ^ (23 - l) := by rw [← pow_add]; congr 1; omega
      _ ≤ n * 2 ^ (23 - l) := Nat.mul_le_mul_right _ hle
  have hhigh : n * 2 ^ (23 - l) < 2 ^ 24 := by
    calc n * 2 ^ (23 - l) < 2 ^ (l + 1) * 2 ^ (23 - l) := Nat.mul_lt_mul_of_pos_right hlt (Nat.two_pow_pos _)
      _ = 2 ^ 24 := by rw [← pow_add]; congr 1; omega
  refine ⟨(126 + l) * 2 ^ 23 + n * 2 ^ (23 - l), by rw [infPattern]; omega, ?_⟩
  rw [magnitude_split (.inr ⟨hlow, hhigh.le⟩), mul_assoc, ← pow_add]
  congr 2
  omega

/-- An integer that is a finite magnitude converts exactly. -/
theorem i2f_of_magnitude {k : Int} {p : Nat} (hp : p < infPattern) (hk : magnitude p = k.natAbs * 2 ^ 149) :
    finite (i2f k) = true ∧ value (i2f k) = k * 2 ^ 149 := by
  have hround : roundMag (k.natAbs * 2 ^ 149) 1 = p := by
    rw [← hk]
    simpa using roundMag_magnitude Nat.one_pos hp.le
  have hlt : p < 2 ^ 31 := hp.trans (by decide)
  rw [i2f, hround]
  refine ⟨by simpa [finite, magPattern_packF32 hlt] using hp, ?_⟩
  rw [value_packF32 hlt, hk, Nat.cast_mul, Nat.cast_pow, Nat.cast_ofNat]
  split
  case isTrue hneg => rw [Int.ofNat_natAbs_of_nonpos (of_decide_eq_true hneg).le, neg_mul, neg_neg]
  case isFalse hpos => rw [Int.natAbs_of_nonneg (not_lt.mp fun hneg => hpos (decide_eq_true hneg))]

theorem i2f_of_natAbs_lt {k : Int} (h : k.natAbs < 2 ^ 24) :
    finite (i2f k) = true ∧ value (i2f k) = k * 2 ^ 149 := by
  obtain ⟨p, hp, hmag⟩ := exists_magnitude_of_lt h
  exact i2f_of_magnitude hp hmag

/-! ### The floor (R102) -/

/-- A finite magnitude of 2^23 or more is a whole number: its last place is worth one or more. -/
theorem dvd_magnitude {p : Nat} (h : 2 ^ 23 * 2 ^ 149 ≤ magnitude p) : 2 ^ 149 ∣ magnitude p := by
  have hone : magnitude (149 * 2 ^ 23 + 2 ^ 23) = 2 ^ 23 * 2 ^ 149 := magnitude_split (.inr (by norm_num))
  have hp : 149 * 2 ^ 23 + 2 ^ 23 ≤ p := magnitude_le_iff.mp (hone ▸ h)
  rw [magnitude, if_neg (by omega)]
  exact dvd_mul_of_dvd_right (pow_dvd_pow 2 (by omega)) _

/-- The floor of a finite value is a finite magnitude: the value is a whole number, or its floor is below 2^24. -/
theorem exists_magnitude_floor {a : F32} (ha : finite a = true) :
    ∃ p < infPattern, magnitude p = (value a / 2 ^ 149).natAbs * 2 ^ 149 := by
  have habs := natAbs_value a
  by_cases h : 2 ^ 23 * 2 ^ 149 ≤ magnitude (magPattern a)
  case pos =>
    have hdvd : (2 ^ 149 : Int) ∣ value a := by
      rw [← Int.natAbs_dvd_natAbs, natAbs_two_pow, habs]
      exact dvd_magnitude h
    refine ⟨magPattern a, by simpa [finite] using ha, ?_⟩
    rw [← habs, ← natAbs_two_pow, ← Int.natAbs_mul, Int.ediv_mul_cancel hdvd]
  case neg => exact exists_magnitude_of_lt (by omega)

theorem ffloor_of_finite {a : F32} (ha : finite a = true) (h0 : isZero a = false) :
    ffloor a = i2f (value a / 2 ^ 149) := by
  simp [ffloor, isNaN_of_finite ha, isInf_of_finite ha, h0]

theorem ffloor_of_isInf {a : F32} (h : isInf a = true) : ffloor a = a := by simp [ffloor, isNaN_of_isInf h, h]

theorem ffloor_of_nan {a : F32} (h : isNaN a = true) : ffloor a = nan := by simp [ffloor, h]

/-- The floor of a finite value is finite, and it is the integer quotient by `1.0`, which has 2^149 units. -/
theorem value_ffloor {a : F32} (ha : finite a = true) :
    finite (ffloor a) = true ∧ value (ffloor a) = value a / 2 ^ 149 * 2 ^ 149 := by
  cases h0 : isZero a with
  | true => rw [ffloor_of_isZero h0, (value_eq_zero a).mpr h0]; exact ⟨ha, rfl⟩
  | false =>
    rw [ffloor_of_finite ha h0]
    obtain ⟨p, hp, hmag⟩ := exists_magnitude_floor ha
    exact i2f_of_magnitude hp hmag

/-- Settles O47: the floor is the integer quotient, which rounding leaves as it is. -/
theorem floorAndIntegersAreExact : Obligations.FloorAndIntegersAreExact := by
  unfold Obligations.FloorAndIntegersAreExact
  refine ⟨fun a ha => ?floor, fun a h => h.elim ffloor_of_isInf ffloor_of_isZero, fun a h => ?withNaN,
    fun k hlow hhigh => i2f_of_natAbs_lt (by omega), by decide +kernel⟩
  case floor =>
    obtain ⟨hfin, hvalue⟩ := value_ffloor ha
    exact ⟨hfin, value a / 2 ^ 149, hvalue, Int.ediv_mul_le _ (by norm_num),
      Int.lt_ediv_add_one_mul_self _ (by norm_num)⟩
  case withNaN => rw [ffloor_of_nan h, isNaN_nan]

/-! ### The unit Scaler (R115, R183) -/

theorem finite_or_isInf {v : F32} (h : isNaN v = false) : finite v = true ∨ isInf v = true := by
  cases hinf : isInf v with
  | true => exact .inr rfl
  | false => exact .inl ((finite_iff v).mpr ⟨h, hinf⟩)

theorem decide_value_neg {v : F32} (h : value v ≠ 0) : decide (value v < 0) = signBit v := by
  cases hs : signBit v with
  | true => exact decide_eq_true ((value_nonpos hs).lt_of_ne h)
  | false => exact decide_eq_false (by rw [value_nonneg hs]; omega)

/-- A finite magnitude is its own rounding. -/
theorem roundMag_self {v : F32} (h : finite v = true) {den : Nat} (hd : 0 < den) :
    roundMag (magnitude (magPattern v) * den) den = magPattern v :=
  roundMag_magnitude hd (of_decide_eq_true h).le

/-- Subtracting `+0.0` changes no value: the exact difference is the value, and of the zeros `-0.0` stays `-0.0`. -/
theorem fsub_f0 {v : F32} (h : isNaN v = false) : fsub v f0 = v := by
  have hf0 : finite (fneg f0) = true := by decide
  rcases finite_or_isInf h with hfin | hinf
  · have hround := roundMag_self hfin Nat.one_pos
    have hsign : (if value v = 0 then signBit v && signBit (fneg f0) else decide (value v < 0)) = signBit v := by
      split
      case isTrue => exact Bool.and_true _
      case isFalse h0 => exact decide_value_neg h0
    rw [mul_one] at hround
    rw [fsub, fadd_of_finite hfin hf0, value_fneg, value_f0, neg_zero, add_zero, hsign, natAbs_value, hround,
      packF32_self]
  · exact fadd_of_isInf_left hinf hf0

/-- Dividing by `1.0` changes no value. -/
theorem fdiv_f1 {v : F32} (h : isNaN v = false) : fdiv v f1 = v := by
  have hsign : (signBit v != signBit f1) = signBit v := Bool.xor_false _
  rcases finite_or_isInf h with hfin | hinf
  · have hone : magnitude (magPattern f1) = 2 ^ 149 := by decide +kernel
    rw [fdiv_of_finite hfin (by decide) (by decide), hone, hsign, roundMag_self hfin (Nat.two_pow_pos _), packF32_self]
  · rw [fdiv_of_isInf_left hinf (by decide), if_neg (by decide), hsign, ← magPattern_of_isInf hinf, packF32_self]

/-- Settles O50: on the input range `[0, 1]` the first two of the four roundings are exact, and a NaN stays the one NaN. -/
theorem windowScalerIsTwoRoundings : Obligations.WindowScalerIsTwoRoundings := by
  unfold Obligations.WindowScalerIsTwoRoundings
  intro window v
  have hlength : rangeLength unitRange = f1 := by decide +kernel
  have hlow : unitRange.low = f0 := by decide +kernel
  rw [scalerScale, windowScaler, hlength, hlow]
  cases h : isNaN v with
  | false => rw [fsub_f0 h, fdiv_f1 h]
  | true =>
    rw [fsub, fadd_of_nan (.inl h), fdiv_of_nan (.inl isNaN_nan), fmul_of_nan (.inl isNaN_nan), fmul_of_nan (.inl h)]

/-! ### The ends of the shaper (R121) -/

/-- Settles O48: both ends are decided by the guards, before an ordinate is read. -/
theorem shaperEndpointsAreExact : Obligations.ShaperEndpointsAreExact := by
  unfold Obligations.ShaperEndpointsAreExact
  intro y2 y3
  have hzero : feq 0x00000000 f0 = true := by decide +kernel
  have hnegZero : feq 0x80000000 f0 = true := by decide +kernel
  have honeNotZero : ¬ feq 0x3F800000 f0 = true := by decide +kernel
  have hone : feq 0x3F800000 f1 = true := by decide +kernel
  refine ⟨?_, ?_, ?_⟩
  · rw [shape, if_pos hzero]; rfl
  · rw [shape, if_pos hnegZero]; rfl
  · rw [shape, if_neg honeNotZero, if_pos hone]; rfl

end Sys2Proof.Machine
end

section
/-! PROOFS. The slots of the bank (R104, R145, R154, R191): the inactive ones keep `+0.0`, and no offset is a NaN. -/

namespace Sys2Proof.Machine

/-- A product of finite values is no NaN, also when it overflows (R100, R145). -/
theorem isNaN_fmul_of_finite {a b : F32} (ha : finite a = true) (hb : finite b = true) : isNaN (fmul a b) = false := by
  rw [fmul_eq_rounded ha hb, isNaN_rounded]

theorem natAbs_detuneMultiple_le (i n : Nat) : (detuneMultiple i n).natAbs ≤ i + n + 1 := by
  unfold detuneMultiple half
  split_ifs <;> omega

/-- The multiple of any slot and count converts exactly, so its product with a finite detune is no NaN (R144, R145). -/
theorem isNaN_detuneOffsetOf {i n : Nat} {d : F32} (hi : i < 16) (hn : n < 32) (hd : detuneOk d = true) :
    isNaN (detuneOffsetOf i n d) = false := by
  have hk := natAbs_detuneMultiple_le i n
  exact isNaN_fmul_of_finite (i2f_of_natAbs_lt (by omega)).1 hd

/-- The detune distribution writes no NaN, whatever count the register of five bits holds (R145). -/
theorem isNaN_detuneAll {n : Nat} {d : F32} {offsets : Vector F32 16} (hn : n < 32) (hd : detuneOk d = true)
    (hoffsets : ∀ i : Fin 16, isNaN offsets[i] = false) (i : Fin 16) : isNaN (detuneAll n d offsets)[i] = false := by
  rw [detuneAll_getElem]
  split
  · exact isNaN_detuneOffsetOf i.isLt hn hd
  · exact hoffsets i

/-- INIT clears both files before it distributes the detune over the active slots. -/
theorem slots_configureVoice {n : Word} {fstart fs flfo d : F32} (s : State) (h : initOffence n fstart fs flfo d = none) :
    InactiveSlotsZero (configureVoice n fstart fs flfo d s) ∧ OffsetsNotNaN (configureVoice n fstart fs flfo d s) := by
  obtain ⟨hn, _, _, _, hd⟩ := initOffence_eq_none.mp h
  have hn16 : n.toNat ≤ 16 := of_decide_eq_true (Bool.and_eq_true_iff.mp hn).2
  have hcount : (n.setWidth 5).toNat = n.toNat := by rw [BitVec.toNat_setWidth]; omega
  have hclear (i : Fin 16) : (Vector.replicate 16 f0)[i] = f0 := by simp
  refine ⟨fun i hi => ⟨hclear i, ?_⟩, isNaN_detuneAll (by omega) hd fun i => ?_⟩
  · rw [configureVoice_oscCount, hcount] at hi
    rw [configureVoice_detuneOffset, detuneAll_getElem, if_neg hi.not_gt, hclear]
  · rw [hclear]; decide

/-- DETUNE writes the active slots only, and no NaN (R143, R145). -/
theorem slots_redetune {d : F32} {s : State} (hd : detuneOk d = true) (hzero : InactiveSlotsZero s)
    (hnan : OffsetsNotNaN s) : InactiveSlotsZero (redetune d s) ∧ OffsetsNotNaN (redetune d s) := by
  have hcount : s.oscCount.toNat < 32 := s.oscCount.isLt
  refine ⟨fun i hi => ?_, fun i => ?_⟩
  · rw [redetune_oscCount] at hi
    rw [redetune_oscPhase, redetune_detuneOffset, detuneAll_getElem, if_neg (Nat.not_lt.mpr hi)]
    exact hzero i hi
  · rw [redetune_detuneOffset]
    exact isNaN_detuneAll hcount hd hnan i

/-- PROC advances the phases of the active slots only (R191). -/
theorem inactiveSlotsZero_advanceVoice {m c1 c2 : F32} {s : State} (hzero : InactiveSlotsZero s) :
    InactiveSlotsZero (advanceVoice m c1 c2 s) := by
  intro i hi
  rw [advanceVoice_oscCount] at hi
  obtain ⟨hphase, hoffset⟩ := hzero i hi
  refine ⟨?_, hoffset⟩
  rw [advanceVoice_oscPhase, bankAdvance_getElem, if_neg (Nat.not_lt.mpr hi), hphase]

theorem slots_kept : KeptByCommands (fun s => InactiveSlotsZero s ∧ OffsetsNotNaN s) where
  ports _ _ _ _ hs := hs
  init := slots_configureVoice
  sett _ hs := hs
  sets _ hs := hs
  detune hd := fun ⟨hzero, hnan⟩ => slots_redetune hd hzero hnan
  proc _ := fun ⟨hzero, hnan⟩ => ⟨inactiveSlotsZero_advanceVoice hzero, hnan⟩

/-- Settles O39: INIT, DETUNE and PROC alone write slots, each the active ones only, and a detune offset is no NaN. -/
theorem stepKeepsSlots : Obligations.StepKeepsSlots := by
  unfold Obligations.StepKeepsSlots
  exact fun _ _ hs h => slots_kept.of_step hs h

end Sys2Proof.Machine
end

section
/-! PROOFS. The generators at the edges of their operands (R131, R145), the detune multiples (R140 to R142), and the bound
that keeps the sum of the bank finite (R136, R190). -/

namespace Sys2Proof.Machine

/-! ### The wrap (R128 to R131, R145) -/

/-- Settles O51: whatever the sum of phase and increment is, its wrap is a phase. -/
theorem nextPhaseIsInUnit : Obligations.NextPhaseIsInUnit := by
  unfold Obligations.NextPhaseIsInUnit
  exact fun p f fs => phaseOk_wrapPhase (fadd p (phaseIncrement f fs))

/-- Infinities of opposite signs have no sum (R99). -/
theorem fsub_self_of_isInf {x : F32} (h : isInf x = true) : fsub x x = nan := by
  simp [fsub, fadd, isNaN_of_isInf h, h]

/-- An infinity is its own floor, and infinity less infinity is a NaN, which the test of R128 refuses (R129). -/
theorem wrapPhase_of_isInf {x : F32} (h : isInf x = true) : wrapPhase x = f0 := by
  have hnan : inUnit nan = false := by decide
  rw [wrapPhase, ffloor_of_isInf h, fsub_self_of_isInf h, hnan, if_neg Bool.false_ne_true]

/-- The three parts of a phase (R131). -/
theorem phaseOk_iff {p : F32} : phaseOk p = true ↔ finite p = true ∧ inUnit p = true ∧ signBit p = false := by
  simp [phaseOk, and_assoc]

theorem isInf_fdiv_of_isInf_left {a b : F32} (ha : isInf a = true) (hb : finite b = true) : isInf (fdiv a b) = true := by
  rw [fdiv_of_isInf_left ha (isNaN_of_finite hb), isInf_of_finite hb, if_neg Bool.false_ne_true, isInf_packF32_infPattern]

/-- Settles O52: the infinity of the offset passes through the frequency, the increment and the sum with the phase, and
the wrap of an infinity is `+0.0`. -/
theorem infiniteOffsetHoldsThePhase : Obligations.InfiniteOffsetHoldsThePhase := by
  unfold Obligations.InfiniteOffsetHoldsThePhase
  intro p current offset fs hp hcurrent hoffset hfs _
  obtain ⟨hpfin, _, _⟩ := phaseOk_iff.mp hp
  have hinc : isInf (phaseIncrement offset fs) = true := isInf_fdiv_of_isInf_left hoffset hfs
  rw [nextPhase, fadd_of_isInf_right hcurrent hoffset, fadd_of_isInf_right hpfin hinc]
  exact wrapPhase_of_isInf hinc

/-! ### The detune multiples (R140 to R142) -/

theorem detuneMultiple_of_lt_half {i n : Nat} (h : i < n / 2) : detuneMultiple i n = (i : Int) - (n / 2 : Nat) := by
  rw [detuneMultiple, half, if_neg (by omega), if_neg (Nat.not_le.mpr h), add_zero]

/-- From the middle slot on the multiples are one higher, so that zero is left out. -/
theorem detuneMultiple_of_half_le {i n : Nat} (hn : n ≠ 1) (h : n / 2 ≤ i) :
    detuneMultiple i n = (i : Int) - (n / 2 : Nat) + 1 := by
  rw [detuneMultiple, half, if_neg hn, if_pos h]

theorem detuneMultiple_half_add {n : Nat} (hn : n ≠ 1) (j : Nat) : detuneMultiple (n / 2 + j) n = (j : Int) + 1 := by
  rw [detuneMultiple_of_half_le hn (Nat.le_add_right _ j)]
  omega

/-- The statement of the multiples reads its lists of naturals as lists of integers, by the list monad. -/
theorem map_of_casts (f : Int → Int) (xs : List Nat) :
    (do let a ← xs; pure (a : Int)).map f = xs.map (fun j : Nat => f j) := by
  rw [bind_pure_comp, List.map_eq_map, List.map_map]
  rfl

/-- In an even bank slot `i` and slot `n - 1 - i` lie on the two sides of the middle. -/
theorem detuneMultiple_mirror {n i : Nat} (hn : n % 2 = 0) (hi : i < n) :
    detuneMultiple i n = -detuneMultiple (n - 1 - i) n := by
  by_cases hlow : i < n / 2
  · rw [detuneMultiple_of_lt_half hlow, detuneMultiple_of_half_le (by omega) (by omega)]
    omega
  · rw [detuneMultiple_of_half_le (by omega) (by omega), detuneMultiple_of_lt_half (by omega)]
    omega

/-- Settles O54: the slots are split at the middle one, below which the multiples are negative and from which on they are
positive. -/
theorem detuneMultiplesSkipZero : Obligations.DetuneMultiplesSkipZero := by
  unfold Obligations.DetuneMultiplesSkipZero
  refine ⟨rfl, fun n hn => ?multiples, fun n i => detuneMultiple_mirror⟩
  case multiples =>
    have hsplit : List.range n = List.range (n / 2) ++ (List.range (n - n / 2)).map (n / 2 + ·) := by
      rw [← List.range_add, Nat.add_sub_cancel' (Nat.div_le_self n 2)]
    rw [hsplit, List.map_append, List.map_map, map_of_casts, map_of_casts]
    refine congrArg₂ _ (List.map_congr_left fun i hi => ?below) (List.map_congr_left fun j _ => ?above)
    case below => exact detuneMultiple_of_lt_half (List.mem_range.mp hi)
    case above => exact detuneMultiple_half_add (by omega) j

/-! ### The sum of the bank (R136, R190) -/

/-- At most `k` times the largest sample R136 allows in magnitude: what the sum of `k` samples is (R136, R190). -/
def WithinSamples (k : Nat) (v : F32) : Prop := magnitude (magPattern v) ≤ k * magnitude waveBoundPattern

theorem withinSamples_f0 : WithinSamples 0 f0 := Nat.zero_le _

theorem withinSamples_one {v : F32} : WithinSamples 1 v ↔ magPattern v ≤ waveBoundPattern := by
  rw [WithinSamples, one_mul, magnitude_le_iff]

/-- Sixteen of the largest samples are the largest finite value, so the bound of R136 keeps a full bank finite. -/
theorem finite_of_withinSamples {k : Nat} {v : F32} (hk : k ≤ 16) (h : WithinSamples k v) : finite v = true := by
  have hsixteen : 16 * magnitude waveBoundPattern < magnitude infPattern := by decide +kernel
  have hmag : magnitude (magPattern v) < magnitude infPattern :=
    (h.trans (Nat.mul_le_mul_right _ hk)).trans_lt hsixteen
  simpa [finite] using magnitude_lt_iff.mp hmag

/-- The multiples of the largest sample up to the sixteenth never round up: each lies less than half a last place above an
f32. -/
theorem magnitude_roundMag_samples_le :
    ∀ k < 17, magnitude (roundMag (k * magnitude waveBoundPattern) 1) ≤ k * magnitude waveBoundPattern := by
  decide +kernel

/-- One more sample: the exact sum is within the next multiple, and rounding, which keeps the order, within the rounding of
that multiple. -/
theorem withinSamples_fadd {k : Nat} {a x : F32} (hk : k + 1 ≤ 16) (ha : WithinSamples k a) (hx : WithinSamples 1 x) :
    WithinSamples (k + 1) (fadd a x) := by
  rw [fadd_eq_rounded (finite_of_withinSamples (by omega) ha) (finite_of_withinSamples (by omega) hx), WithinSamples,
    magPattern_rounded]
  have hsum : (value a + value x).natAbs ≤ (k + 1) * magnitude waveBoundPattern := by
    calc (value a + value x).natAbs ≤ (value a).natAbs + (value x).natAbs := Int.natAbs_add_le _ _
      _ = magnitude (magPattern a) + magnitude (magPattern x) := by rw [natAbs_value, natAbs_value]
      _ ≤ k * magnitude waveBoundPattern + 1 * magnitude waveBoundPattern := Nat.add_le_add ha hx
      _ = (k + 1) * magnitude waveBoundPattern := (Nat.add_mul _ _ _).symm
  have hround : roundMag (value a + value x).natAbs 1 ≤ roundMag ((k + 1) * magnitude waveBoundPattern) 1 :=
    roundMag_mono Nat.one_pos Nat.one_pos (Nat.mul_le_mul_right 1 hsum)
  exact (magnitude_le_iff.mpr hround).trans (magnitude_roundMag_samples_le _ (by omega))

theorem withinSamples_foldl_fadd (xs : List F32) (hxs : ∀ x ∈ xs, WithinSamples 1 x) {k : Nat} {acc : F32}
    (hk : k + xs.length ≤ 16) (hacc : WithinSamples k acc) : WithinSamples (k + xs.length) (xs.foldl fadd acc) := by
  induction xs generalizing k acc with
  | nil => exact hacc
  | cons x xs ih =>
    obtain ⟨hx, hxs⟩ := List.forall_mem_cons.mp hxs
    rw [List.length_cons, Nat.add_comm xs.length, ← Nat.add_assoc] at hk ⊢
    exact ih hxs hk (withinSamples_fadd (by omega) hacc hx)

/-- Folding leaves no sample above the bound: without exponent bit 30 a pattern is below it (R136). -/
theorem magPattern_boundSample_le (v : F32) : magPattern (boundSample v) ≤ waveBoundPattern := by
  unfold boundSample
  split
  case isTrue h => exact h
  case isFalse =>
    have hlt : magPattern v % 2 ^ 30 < 2 ^ 30 := Nat.mod_lt _ (Nat.two_pow_pos 30)
    rw [magPattern_packF32 (hlt.trans (by decide))]
    exact hlt.le.trans (by decide)

theorem withinSamples_oscWave {p : F32} (h : inUnit p = true) : WithinSamples 1 (oscWave p) := by
  rw [oscWave, if_pos h, withinSamples_one]
  exact magPattern_boundSample_le _

/-- R190: for any count, the sum of the samples of a bank is finite when the wave of every phase is within the bound. -/
theorem finite_bankSum {wave : F32 → F32} (n : Nat) {phases : Vector F32 16}
    (h : ∀ i : Fin 16, WithinSamples 1 (wave phases[i])) : finite (bankSum wave n phases) = true := by
  have hlen : ((phases.toList.take n).map wave).length ≤ 16 := by simp
  have hsamples : ∀ x ∈ (phases.toList.take n).map wave, WithinSamples 1 x := by
    intro x hx
    obtain ⟨p, hp, rfl⟩ := List.mem_map.mp hx
    obtain ⟨i, hi, rfl⟩ := Vector.getElem_of_mem (Vector.mem_toList_iff.mp (List.mem_of_mem_take hp))
    exact h ⟨i, hi⟩
  rw [← Nat.zero_add (List.length _)] at hlen
  exact finite_of_withinSamples hlen (withinSamples_foldl_fadd _ hsamples hlen withinSamples_f0)

theorem finite_outputOf {s : State} (hs : PhasesLegal s) : finite (outputOf oscWave s) = true := by
  have hwave (i : Fin 16) : WithinSamples 1 (oscWave s.oscPhase[i]) := by
    obtain ⟨_, hunit, _⟩ := phaseOk_iff.mp (hs.oscPhase i)
    exact withinSamples_oscWave hunit
  have hfin := finite_bankSum s.oscCount.toNat hwave
  rwa [outputOf, portBits, isNaN_of_finite hfin, if_neg Bool.false_ne_true]

theorem exec_proc_of_legal {m : F32} {s : State} (c1 c2 : F32) (hs : s.initialised = true) (hm : frequencyOk m = true) :
    exec (.proc m c1 c2) s = .next (produceSample oscWave m c1 c2 s) := by
  simp only [exec, execProc, whenInitialised_of_true hs, hm, whenValid_true]

/-- Settles O60: the sum of at most sixteen bounded samples is finite after every rounding, and a finite sum leaves the port
as it is. -/
theorem everySampleIsFinite : Obligations.EverySampleIsFinite := by
  unfold Obligations.EverySampleIsFinite
  intro m c1 c2 s hs hphases hfin hge
  have hm : frequencyOk m = true := Bool.and_eq_true_iff.mpr ⟨hfin, hge⟩
  exact ⟨_, _, exec_proc_of_legal c1 c2 hs hm, produceSample_responses s oscWave m c1 c2, responseStatus_responseOf _ _ _,
    finite_outputOf hphases⟩

end Sys2Proof.Machine
end

section
/-! PROOFS. The control commands whole: what a command that checks the flag and one operand answers (R219, R220, R224), SETT,
SETS and DETUNE as such commands (R156, R160, R165), and the first bad operand of INIT (R149). -/

namespace Sys2Proof.Machine

/-! ### The conditions on operands (R148) -/

theorem countOk_eq_true {n : Word} : countOk n = true ↔ 1 ≤ n.toNat ∧ n.toNat ≤ 16 :=
  Bool.and_eq_true_iff.trans (and_congr decide_eq_true_iff decide_eq_true_iff)

theorem countOk_eq_false {n : Word} : countOk n = false ↔ n.toNat = 0 ∨ 16 < n.toNat := by
  rw [Bool.eq_false_iff, ne_eq, countOk_eq_true]
  omega

theorem frequencyOk_eq_true {f : F32} : frequencyOk f = true ↔ finite f = true ∧ fge f 0x00000000 = true :=
  Bool.and_eq_true_iff

theorem frequencyOk_eq_false {f : F32} : frequencyOk f = false ↔ ¬ (finite f = true ∧ fge f 0x00000000 = true) := by
  rw [Bool.eq_false_iff, ne_eq, frequencyOk_eq_true]

theorem sampleRateOk_eq_true {fs : F32} : sampleRateOk fs = true ↔ finite fs = true ∧ fgt fs 0x00000000 = true :=
  Bool.and_eq_true_iff

theorem sampleRateOk_eq_false {fs : F32} :
    sampleRateOk fs = false ↔ ¬ (finite fs = true ∧ fgt fs 0x00000000 = true) := by
  rw [Bool.eq_false_iff, ne_eq, sampleRateOk_eq_true]

/-! ### A command that checks the flag, then its one operand (R219, R220, R224) -/

/-- The three answers of such a command: the update with an OK response, the operand rejected, the voice not initialised. -/
theorem exec_of_checks {i : Instr} {ok : Bool} {update : State → State} {s : State}
    (h : exec i s = .next (whenInitialised s fun s => whenValid ok 1 s fun s => accept 0 (update s))) :
    (s.initialised = true → ok = true →
      exec i s = .next { update s with responses := (update s).responses ++ [⟨0x00000000, 0x00000000⟩] }) ∧
    (s.initialised = true → ok = false →
      exec i s = .next { s with responses := s.responses ++ [⟨0x00000101, 0x00000000⟩] }) ∧
    (s.initialised = false →
      exec i s = .next { s with responses := s.responses ++ [⟨0x00000002, 0x00000000⟩] }) := by
  refine ⟨fun hs hok => ?accepted, fun hs hok => ?badOperand, fun hs => ?beforeInit⟩
  case accepted => rw [h, whenInitialised_of_true hs, hok, whenValid_true]; rfl
  case badOperand => rw [h, whenInitialised_of_true hs, hok, whenValid_false]; rfl
  case beforeInit => rw [h, whenInitialised_of_false hs]; rfl

/-- Settles O17: SETT checks its frequency and then retargets the sweep. -/
theorem settRetargetsFromTheCurrentFrequency : Obligations.SettRetargetsFromTheCurrentFrequency := by
  unfold Obligations.SettRetargetsFromTheCurrentFrequency
  intro f s
  obtain ⟨haccepted, hbad, hbefore⟩ :=
    exec_of_checks (i := .sett f) (ok := frequencyOk f) (update := retarget f) (s := s) rfl
  exact ⟨fun hs hf => haccepted hs (frequencyOk_eq_true.mpr hf), fun hs hf => hbad hs (frequencyOk_eq_false.mpr hf), hbefore⟩

/-- Settles O18: SETS checks its frequency and then restarts the sweep from it. -/
theorem setsJumpsAndKeepsTheTarget : Obligations.SetsJumpsAndKeepsTheTarget := by
  unfold Obligations.SetsJumpsAndKeepsTheTarget
  intro f s
  obtain ⟨haccepted, hbad, hbefore⟩ :=
    exec_of_checks (i := .sets f) (ok := frequencyOk f) (update := restartFrom f) (s := s) rfl
  exact ⟨fun hs hf => haccepted hs (frequencyOk_eq_true.mpr hf), fun hs hf => hbad hs (frequencyOk_eq_false.mpr hf), hbefore⟩

/-- Settles O19: DETUNE checks that its amount is finite and then rewrites the offset file, which `detuneAll` gives slot by
slot. -/
theorem detuneWritesTheActiveOffsets : Obligations.DetuneWritesTheActiveOffsets := by
  unfold Obligations.DetuneWritesTheActiveOffsets
  intro d s
  exact exec_of_checks (i := .detune d) (ok := detuneOk d) (update := redetune d) rfl

/-! ### The first bad operand of INIT (R149) -/

section
variable {n : Word} {fstart fs flfo d : F32}

theorem exec_init_of_offence {number : BitVec 8} (s : State) (h : initOffence n fstart fs flfo d = some number) :
    exec (.init n fstart fs flfo d) s = .next (raise .invalidParameter number s) := by
  simp only [exec, execInit, h]

/-- One check of the chain whose operand is legal: the checks after it decide. -/
theorem check_of_ok {α : Type} {ok : Bool} {number : α} {later : Option α} (h : ok = true) :
    (if !ok then some number else later) = later := by
  simp [h]

/-- One check of the chain whose operand is bad: its number is the answer, whatever comes after. -/
theorem check_of_bad {α : Type} {ok : Bool} {number : α} {later : Option α} (h : ok = false) :
    (if !ok then some number else later) = some number := by
  simp [h]

end

/-- Settles O16: the conditions of the statement are those of the chain of checks; the checks before the bad operand pass, its
own answers its number, and that number is the INFO of the rejection. -/
theorem initReportsTheFirstBadOperand : Obligations.InitReportsTheFirstBadOperand := by
  unfold Obligations.InitReportsTheFirstBadOperand
  intro n fstart fs flfo d s
  simp only [← countOk_eq_true, ← countOk_eq_false, ← frequencyOk_eq_false, ← sampleRateOk_eq_false, Bool.not_eq_false]
  refine ⟨fun hn => exec_init_of_offence s (number := 1) ?count,
    fun hn hstart => exec_init_of_offence s (number := 2) ?startFrequency,
    fun hn hstart hfs => exec_init_of_offence s (number := 3) ?sampleRate,
    fun hn hstart hfs hflfo => exec_init_of_offence s (number := 4) ?lfoFrequency,
    fun hn hstart hfs hflfo (hd : detuneOk d = false) => exec_init_of_offence s (number := 5) ?detune⟩
  case count => rw [initOffence, check_of_bad hn]
  case startFrequency => rw [initOffence, check_of_ok hn, check_of_bad hstart]
  case sampleRate => rw [initOffence, check_of_ok hn, check_of_ok hstart, check_of_bad hfs]
  case lfoFrequency => rw [initOffence, check_of_ok hn, check_of_ok hstart, check_of_ok hfs, check_of_bad hflfo]
  case detune =>
    rw [initOffence, check_of_ok hn, check_of_ok hstart, check_of_ok hfs, check_of_ok hflfo, check_of_bad hd]

end Sys2Proof.Machine
end

section
/-! PROOFS. The values of rounded sums and products (R98 to R100): rounding as a function on the integers, exact on values and
increasing, and with it sums and products that keep the order, and the normalised ramp of a phase (R178). -/

namespace Sys2Proof.Machine

/-! ### Rounding keeps the order of values (R98) -/

/-- The value of `x / d` rounded once: the magnitude of the rounded pattern, with the sign of `x`. -/
def roundValue (x d : Int) : Int := x.sign * magnitude (roundMag x.natAbs d.natAbs)

section
variable {x y d : Int} {v : F32}

theorem roundValue_of_pos (h : 0 < x) : roundValue x d = magnitude (roundMag x.natAbs d.natAbs) := by
  rw [roundValue, Int.sign_eq_one_of_pos h, one_mul]

@[simp] theorem roundValue_zero (d : Int) : roundValue 0 d = 0 := by simp [roundValue]

theorem roundValue_neg (x d : Int) : roundValue (-x) d = -roundValue x d := by
  rw [roundValue, Int.sign_neg, Int.natAbs_neg, neg_mul, roundValue]

theorem roundValue_nonneg (h : 0 ≤ x) : 0 ≤ roundValue x d :=
  mul_nonneg (Int.sign_nonneg_iff.mpr h) (Int.natCast_nonneg _)

/-- The value of `rounded`, whose sign is that of the exact value; an exact zero may have either. -/
theorem value_rounded {neg : Bool} (hd : d ≠ 0) (hsign : if neg then x ≤ 0 else 0 ≤ x) :
    value (rounded neg x d) = roundValue x d := by
  rcases eq_or_ne x 0 with rfl | hx
  · rw [roundValue_zero, value_eq_zero, isZero, magPattern_rounded, Int.natAbs_zero, roundMag_zero (Int.natAbs_pos.mpr hd)]
    rfl
  · cases neg with
    | true =>
      have hneg : x < 0 := lt_of_le_of_ne hsign hx
      rw [value_neg signBit_rounded, magPattern_rounded, roundValue, Int.sign_eq_neg_one_of_neg hneg, neg_one_mul]
    | false =>
      have hpos : 0 < x := lt_of_le_of_ne hsign hx.symm
      rw [value_nonneg signBit_rounded, magPattern_rounded, roundValue_of_pos hpos]

theorem roundValue_le_of_pos (hd : d ≠ 0) (hx : 0 < x) (h : x ≤ y) : roundValue x d ≤ roundValue y d := by
  have hdpos := Int.natAbs_pos.mpr hd
  rw [roundValue_of_pos hx, roundValue_of_pos (hx.trans_le h), Nat.cast_le, magnitude_le_iff]
  exact roundMag_mono hdpos hdpos (Nat.mul_le_mul_right _ (by omega))

/-- Rounding keeps the order: on one side of zero it is that of the magnitudes, and no sign is crossed. -/
theorem roundValue_mono (hd : d ≠ 0) (h : x ≤ y) : roundValue x d ≤ roundValue y d := by
  rcases lt_or_ge 0 x with hx | hx
  · exact roundValue_le_of_pos hd hx h
  · rcases lt_or_ge y 0 with hy | hy
    · have hneg := roundValue_le_of_pos hd (neg_pos.mpr hy) (neg_le_neg h)
      rwa [roundValue_neg, roundValue_neg, neg_le_neg_iff] at hneg
    · have hx' := roundValue_nonneg (d := d) (neg_nonneg.mpr hx)
      rw [roundValue_neg, neg_nonneg] at hx'
      exact hx'.trans (roundValue_nonneg hy)

/-- A finite value is its own rounding. -/
theorem roundValue_value (h : finite v = true) : roundValue (value v) 1 = value v := by
  have hround := roundMag_self h Nat.one_pos
  rw [mul_one] at hround
  rw [roundValue, natAbs_value, Int.natAbs_one, hround, ← natAbs_value, Int.sign_mul_natAbs]

end

/-! ### Sums and products (R99, R100) -/

section
variable {a b c v : F32}

theorem isNaN_fadd_of_finite (ha : finite a = true) (hb : finite b = true) : isNaN (fadd a b) = false := by
  rw [fadd_eq_rounded ha hb, isNaN_rounded]

theorem value_fadd (ha : finite a = true) (hb : finite b = true) :
    value (fadd a b) = roundValue (value a + value b) 1 := by
  rw [fadd_eq_rounded ha hb]
  exact value_rounded one_ne_zero (sum_sign _ _)

theorem value_fsub (ha : finite a = true) (hb : finite b = true) :
    value (fsub a b) = roundValue (value a - value b) 1 := by
  rw [fsub, value_fadd ha ((finite_fneg b).trans hb), value_fneg, sub_eq_add_neg]

theorem value_fmul (ha : finite a = true) (hb : finite b = true) :
    value (fmul a b) = roundValue (value a * value b) (2 ^ 149) := by
  rw [fmul_eq_rounded ha hb]
  exact value_rounded (by norm_num) (value_mul_value_sign a b)

theorem value_fabs (v : F32) : value (fabs v) = (value v).natAbs := by
  rw [value_nonneg (signBit_fabs v), magPattern_fabs, natAbs_value]

/-- What lies between two finite values is finite. -/
theorem finite_of_rangeContains (ha : finite a = true) (hb : finite b = true) (h : rangeContains ⟨a, b⟩ v = true) :
    finite v = true := by
  obtain ⟨hlow, hhigh⟩ := Bool.and_eq_true_iff.mp h
  obtain ⟨_, _, hlow⟩ := fle_iff.mp hlow
  obtain ⟨_, _, hhigh⟩ := fle_iff.mp hhigh
  have hlow : value 0xFF800000 < value v := (value_lt_of_finite ha).1.trans_le hlow
  have hhigh : value v < value 0x7F800000 := hhigh.trans_lt (value_lt_of_finite hb).2
  have hpos : value 0x7F800000 = magnitude infPattern := value_nonneg (by decide)
  have hneg : value 0xFF800000 = -(magnitude infPattern : Int) := value_neg (by decide)
  have habs := natAbs_value v
  have hmag : magnitude (magPattern v) < magnitude infPattern := by omega
  simpa [finite] using magnitude_lt_iff.mp hmag

/-- Sums of finite values keep the order. -/
theorem fle_fadd (ha : finite a = true) (hb : finite b = true) (hc : finite c = true) (h : fle a b = true) :
    fle (fadd a c) (fadd b c) = true := by
  obtain ⟨_, _, hle⟩ := fle_iff.mp h
  rw [fle_iff, value_fadd ha hc, value_fadd hb hc]
  exact ⟨isNaN_fadd_of_finite ha hc, isNaN_fadd_of_finite hb hc, roundValue_mono one_ne_zero (by omega)⟩

/-- Products with a finite value that is not negative keep the order. -/
theorem fle_fmul (ha : finite a = true) (hb : finite b = true) (hc : frequencyOk c = true) (h : fle a b = true) :
    fle (fmul c a) (fmul c b) = true := by
  obtain ⟨_, _, hle⟩ := fle_iff.mp h
  obtain ⟨hcfin, _⟩ := frequencyOk_eq_true.mp hc
  obtain ⟨hc0, _⟩ := frequencyOk_iff.mp hc
  rw [fle_iff, value_fmul hcfin ha, value_fmul hcfin hb]
  exact ⟨isNaN_fmul_of_finite hcfin ha, isNaN_fmul_of_finite hcfin hb,
    roundValue_mono (by norm_num) (mul_le_mul_of_nonneg_left hle hc0)⟩

/-- The sum with `c` of a value in a range lies between the sums of its ends. -/
theorem rangeContains_fadd {low high : F32} (ha : finite a = true) (hb : finite b = true) (hc : finite c = true)
    (hlow : fadd a c = low) (hhigh : fadd b c = high) (h : rangeContains ⟨a, b⟩ v = true) :
    rangeContains ⟨low, high⟩ (fadd v c) = true := by
  subst hlow hhigh
  have hv := finite_of_rangeContains ha hb h
  obtain ⟨hlow, hhigh⟩ := Bool.and_eq_true_iff.mp h
  exact Bool.and_eq_true_iff.mpr ⟨fle_fadd ha hv hc hlow, fle_fadd hv hb hc hhigh⟩

/-- The product by `c` of a value in a range lies between the products of its ends. -/
theorem rangeContains_fmul {low high : F32} (ha : finite a = true) (hb : finite b = true) (hc : frequencyOk c = true)
    (hlow : fmul c a = low) (hhigh : fmul c b = high) (h : rangeContains ⟨a, b⟩ v = true) :
    rangeContains ⟨low, high⟩ (fmul c v) = true := by
  subst hlow hhigh
  have hv := finite_of_rangeContains ha hb h
  obtain ⟨hlow, hhigh⟩ := Bool.and_eq_true_iff.mp h
  exact Bool.and_eq_true_iff.mpr ⟨fle_fmul ha hv hc hlow, fle_fmul hv hb hc hhigh⟩

end

/-! ### The normalised ramp (R133, R178) -/

/-- The largest phase is `1 - 2^-24`, the f32 below `1.0`. -/
theorem rangeContains_of_phaseOk {p : F32} (h : phaseOk p = true) : rangeContains ⟨0x00000000, 0x3F7FFFFF⟩ p = true := by
  obtain ⟨hfin, hunit, hsign⟩ := phaseOk_iff.mp h
  obtain ⟨hlow, hhigh⟩ := Bool.and_eq_true_iff.mp hunit
  refine Bool.and_eq_true_iff.mpr ⟨hlow, ?_⟩
  rw [flt_of_nonneg hsign (by decide), Bool.and_eq_true_iff, decide_eq_true_iff] at hhigh
  obtain ⟨_, hlt⟩ := hhigh
  have hone : magPattern f1 = magPattern 0x3F7FFFFF + 1 := by decide
  have hle : magPattern p ≤ magPattern 0x3F7FFFFF := by omega
  show fle p 0x3F7FFFFF = true
  rw [fle_of_nonneg hsign (by decide), isNaN_of_finite hfin, decide_eq_true hle]
  decide

/-- Each operation of the ramp keeps the order, so the ramp of a phase lies between those of the least and the largest. -/
theorem rangeContains_ramp {p : F32} (h : phaseOk p = true) :
    rangeContains ⟨0x00000000, 0x3F7FFFFF⟩ (normalise (lfoWave p)) = true := by
  have hdoubled : rangeContains ⟨0x00000000, 0x3FFFFFFF⟩ (fmul f2 p) = true :=
    rangeContains_fmul (by decide) (by decide) (by decide +kernel) (by decide +kernel) (by decide +kernel)
      (rangeContains_of_phaseOk h)
  have hramp : rangeContains ⟨0xBF800000, 0x3F7FFFFE⟩ (fadd (fmul f2 p) (fneg f1)) = true :=
    rangeContains_fadd (by decide) (by decide) (by decide) (by decide +kernel) (by decide +kernel) hdoubled
  have hwave : rangeContains ⟨0xBF000000, 0x3EFFFFFE⟩ (fmul Config.lfoAmplitude (ramp p)) = true :=
    rangeContains_fmul (by decide) (by decide) (by decide +kernel) (by decide +kernel) (by decide +kernel) hramp
  exact rangeContains_fadd (by decide) (by decide) (by decide) (by decide +kernel) (by decide +kernel) hwave

theorem ramp_of_zero : normalise (lfoWave f0) = f0 := by decide +kernel

/-- Settles O53: the ramp lies between `+0.0` and `1 - 2^-24`, and a sum with `0.5` is never `-0.0`. -/
theorem rampStaysInUnit : Obligations.RampStaysInUnit := by
  unfold Obligations.RampStaysInUnit
  refine ⟨fun p h => phaseOk_of_inUnit ?inUnit fun hzero => ?notNegative, ramp_of_zero⟩
  case inUnit =>
    obtain ⟨hlow, hhigh⟩ := Bool.and_eq_true_iff.mp (rangeContains_ramp h)
    obtain ⟨hnan, _, hle⟩ := fle_iff.mp hhigh
    have hone : value 0x3F7FFFFF < value f1 := by decide +kernel
    exact Bool.and_eq_true_iff.mpr ⟨hlow, flt_iff.mpr ⟨hnan, by decide, hle.trans_lt hone⟩⟩
  case notNegative =>
    rw [Bool.eq_false_iff]
    intro hsign
    obtain ⟨_, hhalf, _⟩ := negative_zeros_of_fadd hzero hsign
    exact absurd hhalf (by decide)

end Sys2Proof.Machine
end

section
/-! PROOFS. PROC and the sweep (R175 to R203): the trace records (R195, R196), the transitions of `STATE` (R198), the candidates
at the start of a sweep and where they converge (R197, R199, R202, R203), and the LFO that stands still (R200). -/

namespace Sys2Proof.Machine

/-! ### The trace port (R195, R196) -/

section
variable {i : Instr} {s t u : State} {v : Word} {r : Response}

/-- The response an accepted command has put on the port. -/
theorem response_of_accepts (h : Accepts i s v u) (ht : (accept v u).responses = s.responses ++ [r]) :
    r = responseOf statusOk 0 v := by
  rw [accept_responses, accepts_responses h] at ht
  exact (List.singleton_inj.mp (List.append_cancel_left ht)).symm

/-- An accepted command is a PROC and emits a record of the sample it answers, or it emits none. -/
theorem trace_of_accepts (h : Accepts i s v u) :
    ((∃ m c1 c2, i = .proc m c1 c2) ∧ ∃ record, u.trace = s.trace ++ [record] ∧ record.output = v) ∨
      ((¬ ∃ m c1 c2, i = .proc m c1 c2) ∧ u.trace = s.trace) := by
  cases h with
  | proc => exact .inl ⟨⟨_, _, _, rfl⟩, _, rfl, rfl⟩
  | _ => exact .inr ⟨nofun, rfl⟩

end

/-- Settles O29: a rejection has another status and emits nothing, and of the accepted commands PROC alone emits a record. -/
theorem oneTraceRecordPerAcceptedProc : Obligations.OneTraceRecordPerAcceptedProc := by
  unfold Obligations.OneTraceRecordPerAcceptedProc
  intro i s t r h ht
  rw [ite_prop_iff_and]
  rcases exec_next_cases h with ⟨why, number, _, rfl⟩ | ⟨v, u, ha, rfl⟩
  · rw [raise_responses] at ht
    obtain rfl := List.singleton_inj.mp (List.append_cancel_left ht)
    rw [responseStatus_responseOf]
    exact ⟨fun ⟨hok, _⟩ => absurd hok (rejectionCode_ne_ok why), fun _ => rfl⟩
  · obtain rfl := response_of_accepts ha ht
    rw [responseStatus_responseOf]
    rcases trace_of_accepts ha with ⟨hproc, hrecord⟩ | ⟨hproc, htrace⟩
    · exact ⟨fun _ => hrecord, fun hno => absurd ⟨rfl, hproc⟩ hno⟩
    · exact ⟨fun ⟨_, hyes⟩ => absurd hyes hproc, fun _ => htrace⟩

/-! ### The transitions of `STATE` (R175, R198) -/

theorem enterSweep_eq_atTarget {x : SweepState} : enterSweep x = .atTarget ↔ x = .atTarget := by
  cases x <;> decide

/-- Step 1 on the LFO phase: `+0.0` in Pending, unmoved otherwise. -/
theorem enterPhase_eq (x : SweepState) (phase : F32) : enterPhase x phase = if x = .pending then f0 else phase := by
  cases x <;> rfl

/-- Everything steps 5 to 8 do to a voice, by the `STATE` it had before the command (R198). -/
theorem sweepOf_cases (s : State) (m c1 c2 : F32) :
    let cand := candidate s.startFreq s.targetFreq (shapedOf s m c1 c2)
    (s.sweep = .atTarget ∧ sweepOf s m c1 c2 = ⟨.atTarget, s.targetFreq, s.targetFreq⟩) ∨
      (s.sweep ≠ .atTarget ∧ converged s.startFreq s.targetFreq cand = true ∧
        sweepOf s m c1 c2 = ⟨.atTarget, s.targetFreq, portBits (s.nanDraws + 2) cand⟩) ∨
      (s.sweep ≠ .atTarget ∧ converged s.startFreq s.targetFreq cand = false ∧
        sweepOf s m c1 c2 = ⟨.inTransit, cand, portBits (s.nanDraws + 2) cand⟩) := by
  have hcases := sweepStep_cases (s.nanDraws + 2) (enterSweep s.sweep) s.startFreq s.targetFreq (shapedOf s m c1 c2)
  rwa [Ne, enterSweep_eq_atTarget] at hcases

/-- What R198 reserves to INIT, SETT and SETS: to leave AtTarget, or to come to Pending from another state. -/
def MovesBack (x y : SweepState) : Prop := x = .atTarget ∧ y ≠ .atTarget ∨ x ≠ .pending ∧ y = .pending

theorem not_movesBack_self (x : SweepState) : ¬ MovesBack x x :=
  fun h => h.elim (fun ⟨hat, hne⟩ => hne hat) (fun ⟨hne, hpending⟩ => hne hpending)

section
variable {s : State} {m c1 c2 : F32}

theorem sweepOf_ne_pending : (sweepOf s m c1 c2).sweep ≠ .pending := by
  rcases sweepOf_cases s m c1 c2 with ⟨_, he⟩ | ⟨_, _, he⟩ | ⟨_, _, he⟩ <;> rw [he] <;> exact nofun

theorem sweepOf_of_atTarget (h : s.sweep = .atTarget) :
    sweepOf s m c1 c2 = ⟨.atTarget, s.targetFreq, s.targetFreq⟩ := by
  rw [sweepOf, enterSweep_eq_atTarget.mpr h]
  rfl

theorem sweepOf_unconstrained (h : s.sweep ≠ .atTarget) : (sweepOf s m c1 c2).unconstrained =
    portBits (s.nanDraws + 2) (candidate s.startFreq s.targetFreq (shapedOf s m c1 c2)) := by
  rcases sweepOf_cases s m c1 c2 with ⟨hat, _⟩ | ⟨_, _, he⟩ | ⟨_, _, he⟩
  · exact absurd hat h
  · rw [he]
  · rw [he]

theorem not_movesBack_sweepOf : ¬ MovesBack s.sweep (sweepOf s m c1 c2).sweep := by
  rintro (⟨hat, hne⟩ | ⟨_, hpending⟩)
  · exact hne (by rw [sweepOf_of_atTarget hat])
  · exact sweepOf_ne_pending hpending

end

/-- Settles O33: a rejection and a command that reads only leave `STATE` as it is, and PROC moves it forward. -/
theorem stateMovesForwardUntilRetargeted : Obligations.StateMovesForwardUntilRetargeted := by
  unfold Obligations.StateMovesForwardUntilRetargeted
  intro i s t h (hback : MovesBack s.sweep t.sweep)
  rcases exec_next_cases h with ⟨why, number, _, rfl⟩ | ⟨v, u, ha, rfl⟩
  · exact absurd hback (not_movesBack_self s.sweep)
  · rw [accept_sweep] at hback
    cases ha with
    | init => exact .inl ⟨_, _, _, _, _, rfl⟩
    | sett => exact .inr (.inl ⟨_, rfl⟩)
    | sets => exact .inr (.inr ⟨_, rfl⟩)
    | proc => exact absurd hback not_movesBack_sweepOf
    | detune | status | rdsr | isat => exact absurd hback (not_movesBack_self s.sweep)

/-- Settles O34: the cases of steps 5 to 8, on the state an accepted PROC answers. -/
theorem procTransitionTable : Obligations.ProcTransitionTable := by
  unfold Obligations.ProcTransitionTable
  intro m c1 c2 s hs hfin hge
  refine ⟨_, exec_proc_of_legal c1 c2 hs (frequencyOk_eq_true.mpr ⟨hfin, hge⟩), ?_⟩
  rw [produceSample_sweep, produceSample_currentFreq]
  rcases sweepOf_cases s m c1 c2 with ⟨hat, he⟩ | ⟨hne, hconv, he⟩ | ⟨hne, hconv, he⟩ <;> rw [he]
  · exact ⟨fun _ => ⟨rfl, rfl⟩, fun hne => absurd hat hne⟩
  · exact ⟨fun hat => absurd hat hne, fun _ => (if_pos hconv).mpr ⟨rfl, rfl⟩⟩
  · exact ⟨fun hat => absurd hat hne, fun _ => (if_neg (Bool.eq_false_iff.mp hconv)).mpr ⟨rfl, rfl⟩⟩

/-! ### The window and its candidates (R106, R115, R182 to R185) -/

section
variable {start target v : F32}

theorem finite_of_frequencyOk {f : F32} (h : frequencyOk f = true) : finite f = true := (frequencyOk_eq_true.mp h).1

theorem rangeNew_of_not_fgt {a b : F32} (h : fgt a b = false) : rangeNew a b = ⟨a, b⟩ := by
  rw [rangeNew, h, if_neg Bool.false_ne_true]

theorem rangeNew_of_fgt {a b : F32} (h : fgt a b = true) : rangeNew a b = ⟨b, a⟩ := if_pos h

theorem fgt_eq_not_fle {a b : F32} (ha : isNaN a = false) (hb : isNaN b = false) : fgt a b = !fle a b := by
  rw [fle_eq_not_flt ha hb, Bool.not_not, fgt]

/-- The difference of two legal frequencies in order is a legal frequency: it lies between zero and the larger. -/
theorem frequencyOk_fsub {low high : F32} (hlow : frequencyOk low = true) (hhigh : frequencyOk high = true)
    (h : fle low high = true) : frequencyOk (fsub high low) = true := by
  have hfin := finite_of_frequencyOk hhigh
  obtain ⟨hlow0, _⟩ := frequencyOk_iff.mp hlow
  obtain ⟨_, hhighlt⟩ := frequencyOk_iff.mp hhigh
  obtain ⟨_, _, hle⟩ := fle_iff.mp h
  rw [frequencyOk_iff, value_fsub hfin (finite_of_frequencyOk hlow)]
  refine ⟨roundValue_nonneg (by omega), lt_of_le_of_lt ?_ hhighlt⟩
  calc roundValue (value high - value low) 1 ≤ roundValue (value high) 1 := roundValue_mono one_ne_zero (by omega)
    _ = value high := roundValue_value hfin

/-- The candidate with the unit Scaler's two exact roundings left out. -/
theorem candidate_eq (start target sh : F32) : candidate start target sh =
    fadd (fmul (directed start target sh) (rangeLength (rangeNew start target))) (rangeNew start target).low :=
  windowScalerIsTwoRoundings _ _

theorem fmul_f1 (h : finite v = true) : fmul f1 v = v := by
  have hone : magnitude (magPattern f1) = 2 ^ 149 := by decide +kernel
  have hsign : (signBit f1 != signBit v) = signBit v := Bool.false_xor _
  rw [fmul_of_finite (by decide) h, hone, mul_comm, roundMag_self h (Nat.two_pow_pos _), hsign, packF32_self]

/-- At the start of an ascending sweep the candidate is a product with `+0.0`, plus the start. -/
theorem candidate_zero_of_ascending (h : fgt start target = false) :
    candidate start target f0 = fadd (fmul f0 (fsub target start)) start := by
  rw [candidate_eq, rangeNew_of_not_fgt h, directed, h, if_neg Bool.false_ne_true]
  rfl

/-- At the start of a descending sweep the candidate is the start less the target, plus the target. -/
theorem candidate_zero_of_descending (hstart : frequencyOk start = true) (htarget : frequencyOk target = true)
    (h : fgt start target = true) : candidate start target f0 = fadd (fsub start target) target := by
  have hlength := finite_of_frequencyOk (frequencyOk_fsub htarget hstart (fle_of_flt h))
  have hone : fsub f1 f0 = f1 := fsub_f0 (by decide)
  rw [candidate_eq, rangeNew_of_fgt h, directed, if_pos h, hone, rangeLength, fmul_f1 hlength]

/-- The product with a zero is a zero, of either sign. -/
theorem value_fmul_zero {z : F32} (hz : isZero z = true) (hv : finite v = true) :
    value (fmul z v) = 0 ∧ value (fmul v z) = 0 := by
  have hz0 := (value_eq_zero z).mpr hz
  rw [value_fmul (finite_of_isZero hz) hv, value_fmul hv (finite_of_isZero hz), hz0, zero_mul, mul_zero, roundValue_zero]
  exact ⟨rfl, rfl⟩

/-- The sum of a zero of either sign and a value has that value. -/
theorem value_fadd_zero_left {z : F32} (hz : value z = 0) (hv : finite v = true) : value (fadd z v) = value v := by
  rw [value_fadd (finite_of_isZero ((value_eq_zero z).mp hz)) hv, hz, zero_add, roundValue_value hv]

/-- A candidate that is not finite is outside the window, which has finite ends. -/
theorem converged_of_not_finite (hstart : finite start = true) (htarget : finite target = true)
    (h : finite v = false) : converged start target v = true := by
  by_contra hconv
  have hin := contains_of_not_converged (Bool.eq_false_iff.mpr hconv)
  have hfin : finite v = true := by
    rcases rangeNew_cases start target with hr | hr <;> rw [hr] at hin
    · exact finite_of_rangeContains hstart htarget hin
    · exact finite_of_rangeContains htarget hstart hin
  exact absurd (h.symm.trans hfin) Bool.false_ne_true

/-- A finite candidate with the value of the target is at no distance from it. -/
theorem converged_of_value_eq (hv : finite v = true) (htarget : finite target = true) (h : value v = value target) :
    converged start target v = true := by
  have hnan : isNaN (fsub v target) = false := isNaN_fadd_of_finite hv ((finite_fneg target).trans htarget)
  have hzero : value (fabs (fsub v target)) = 0 := by rw [value_fabs, value_fsub hv htarget, h, sub_self, roundValue_zero]; rfl
  have hone : 0 ≤ value Config.targetFrequencyTolerance := by decide +kernel
  refine Bool.or_eq_true_iff.mpr (.inl (fle_iff.mpr ⟨?_, by decide, hzero.trans_le hone⟩))
  rwa [isNaN_fabs]

/-- A factor that is an infinity or a NaN gives no finite product (R100). -/
theorem finite_left_of_fmul {a b : F32} (h : finite (fmul a b) = true) : finite a = true := by
  have hnan : finite nan = false := by decide
  have hinf (neg : Bool) : finite (packF32 neg infPattern) = false := by
    simp [finite, magPattern_packF32 (show infPattern < 2 ^ 31 by decide)]
  rw [finite_iff a]
  unfold fmul at h
  split_ifs at h with hn hi hz
  · simp [hnan] at h
  · simp [hnan] at h
  · simp [hinf] at h
  · simp only [Bool.or_eq_true, not_or, Bool.not_eq_true] at hn hi
    obtain ⟨hnan, _⟩ := hn
    obtain ⟨hinf, _⟩ := hi
    exact ⟨hnan, hinf⟩

/-- Over a window of zero length a finite candidate has the value of both its ends. -/
theorem value_candidate_of_zero_length {sh : F32} (hstart : finite start = true) (htarget : finite target = true)
    (h : value start = value target) (hcand : finite (candidate start target sh) = true) :
    value (candidate start target sh) = value target := by
  have hnot : fgt start target = false := by
    rw [fgt, flt_of_not_nan (isNaN_of_finite htarget) (isNaN_of_finite hstart), h, decide_eq_false (lt_irrefl _)]
  have hlength : isZero (fsub target start) = true := by
    rw [← value_eq_zero, value_fsub htarget hstart, h, sub_self, roundValue_zero]
  rw [candidate_eq, rangeNew_of_not_fgt hnot, rangeLength] at hcand ⊢
  obtain ⟨hproduct, _⟩ := finite_operands_of_fadd hcand
  rw [value_fadd_zero_left (value_fmul_zero hlength (finite_left_of_fmul hproduct)).2 hstart, h]

end

/-- Settles O58: the ends of a legal window are finite, and only what is finite lies between them. -/
theorem nonFiniteCandidateConverges : Obligations.NonFiniteCandidateConverges := by
  unfold Obligations.NonFiniteCandidateConverges
  exact fun start target cand hstart htarget =>
    converged_of_not_finite (finite_of_frequencyOk hstart) (finite_of_frequencyOk htarget)

/-- Settles O57: a candidate over a window of zero length is not finite, or has the value of the target; either converges. -/
theorem zeroLengthWindowCompletesAtOnce : Obligations.ZeroLengthWindowCompletesAtOnce := by
  unfold Obligations.ZeroLengthWindowCompletesAtOnce
  intro m c1 c2 s hs hlegal heq hfin hge
  obtain ⟨t, he, hat, hmoving⟩ := procTransitionTable m c1 c2 s hs hfin hge
  have hstart := finite_of_frequencyOk hlegal.startFreq
  have htarget := finite_of_frequencyOk hlegal.targetFreq
  have hvalue : value s.startFreq = value s.targetFreq := by
    rwa [feq_of_not_nan (isNaN_of_finite hstart) (isNaN_of_finite htarget), decide_eq_true_iff] at heq
  refine ⟨t, he, ?_⟩
  by_cases hsweep : s.sweep = .atTarget
  case pos => exact hat hsweep
  case neg =>
    have hconv : converged s.startFreq s.targetFreq
        (candidate s.startFreq s.targetFreq (shapedOf s m c1 c2)) = true := by
      cases hcand : finite (candidate s.startFreq s.targetFreq (shapedOf s m c1 c2)) with
      | true =>
        exact converged_of_value_eq hcand htarget (value_candidate_of_zero_length hstart htarget hvalue hcand)
      | false => exact converged_of_not_finite hstart htarget hcand
    exact (if_pos hconv).mp (hmoving hsweep)

/-! ### The start of a sweep (R178, R197, R202) -/

section
variable {s : State} {m c1 c2 : F32}

/-- The ramp is a function of the phase step 1 leaves, whatever the multiplier (R130). -/
theorem rampOf_eq (s : State) (m : F32) : rampOf s m = normalise (lfoWave (enterPhase s.sweep s.lfoPhase)) := rfl

/-- At phase `+0.0` the ramp is `+0.0`, and the shaper's first guard answers for all control points. -/
theorem shapedOf_of_phase_zero (h : enterPhase s.sweep s.lfoPhase = f0) :
    rampOf s m = f0 ∧ shapedOf s m c1 c2 = f0 := by
  have hramp : rampOf s m = f0 := by rw [rampOf_eq, h, ramp_of_zero]
  rw [shapedOf, hramp]
  exact ⟨rfl, (shaperEndpointsAreExact c1 c2).1⟩

/-- The first sample of a sweep: step 1 resets the phase, so the control points have no part in the candidate. -/
theorem proc_of_pending (hs : s.initialised = true) (hpending : s.sweep = .pending) (hfin : finite m = true)
    (hge : fge m 0x00000000 = true) : ∃ t, exec (.proc m c1 c2) s = .next t ∧
      shapedOf s m c1 c2 = f0 ∧
      if converged s.startFreq s.targetFreq (candidate s.startFreq s.targetFreq f0) then
        t.sweep = .atTarget ∧ t.currentFreq = s.targetFreq
      else t.sweep = .inTransit ∧ t.currentFreq = candidate s.startFreq s.targetFreq f0 := by
  obtain ⟨t, he, _, hmoving⟩ := procTransitionTable m c1 c2 s hs hfin hge
  obtain ⟨_, hshaped⟩ := shapedOf_of_phase_zero (s := s) (m := m) (c1 := c1) (c2 := c2) (by rw [hpending]; rfl)
  rw [hshaped] at hmoving
  exact ⟨t, he, hshaped, hmoving (by rw [hpending]; exact nofun)⟩

end

section
variable {start target : F32}

theorem fgt_eq_false_of_fle (h : fle start target = true) : fgt start target = false := by
  rw [fgt_eq_not_fle (isNaN_of_fle_left h) (isNaN_of_fle_right h), h]
  rfl

/-- The candidate at the start of an ascending sweep has the value of the start; it may differ from it in the sign of zero. -/
theorem value_first_of_ascending (hstart : frequencyOk start = true) (htarget : frequencyOk target = true)
    (h : fle start target = true) : value (candidate start target f0) = value start := by
  have hlength := finite_of_frequencyOk (frequencyOk_fsub hstart htarget h)
  rw [candidate_zero_of_ascending (fgt_eq_false_of_fle h)]
  exact value_fadd_zero_left (value_fmul_zero (by decide) hlength).1 (finite_of_frequencyOk hstart)

theorem frequencyOk_first_of_ascending (hstart : frequencyOk start = true) (htarget : frequencyOk target = true)
    (h : fle start target = true) : frequencyOk (candidate start target f0) = true := by
  rw [frequencyOk_iff, value_first_of_ascending hstart htarget h]
  exact frequencyOk_iff.mp hstart

/-- The first candidate is no NaN, whichever way the sweep goes. -/
theorem isNaN_first (hstart : frequencyOk start = true) (htarget : frequencyOk target = true) :
    isNaN (candidate start target f0) = false := by
  cases h : fle start target with
  | true => exact isNaN_of_frequencyOk (frequencyOk_first_of_ascending hstart htarget h)
  | false =>
    have hgt : fgt start target = true := by
      rw [fgt_eq_not_fle (isNaN_of_frequencyOk hstart) (isNaN_of_frequencyOk htarget), h]
      rfl
    have hlength := finite_of_frequencyOk (frequencyOk_fsub htarget hstart (fle_of_flt hgt))
    rw [candidate_zero_of_descending hstart htarget hgt]
    exact isNaN_fadd_of_finite hlength (finite_of_frequencyOk htarget)

/-- The distance of two finite values is their difference taken downwards. -/
theorem value_fabs_fsub {a b : F32} (ha : finite a = true) (hb : finite b = true) (h : value a ≤ value b) :
    value (fabs (fsub a b)) = roundValue (value b - value a) 1 := by
  have hnonneg : 0 ≤ roundValue (value b - value a) 1 := roundValue_nonneg (by omega)
  rw [value_fabs, value_fsub ha hb, ← neg_sub, roundValue_neg, Int.natAbs_neg, Int.natAbs_of_nonneg hnonneg]

/-- The first candidate of an ascending sweep lies in the window, so it converges by its distance alone, which is that of the
start. -/
theorem converged_first_of_ascending (hstart : frequencyOk start = true) (htarget : frequencyOk target = true)
    (h : fle start target = true) :
    converged start target (candidate start target f0) = fle (fsub target start) 0x3F800000 := by
  have hcand := finite_of_frequencyOk (frequencyOk_first_of_ascending hstart htarget h)
  have hvalue := value_first_of_ascending hstart htarget h
  have hstartFin := finite_of_frequencyOk hstart
  have htargetFin := finite_of_frequencyOk htarget
  generalize candidate start target f0 = cand at hcand hvalue
  obtain ⟨_, _, hle⟩ := fle_iff.mp h
  have hin : rangeContains ⟨start, target⟩ cand = true := by
    rw [rangeContains, fle_of_not_nan (isNaN_of_finite hstartFin) (isNaN_of_finite hcand),
      fle_of_not_nan (isNaN_of_finite hcand) (isNaN_of_finite htargetFin), hvalue]
    simpa using hle
  have hdistance : value (fabs (fsub cand target)) = value (fsub target start) := by
    rw [value_fabs_fsub hcand htargetFin (hvalue.trans_le hle), value_fsub htargetFin hstartFin, hvalue]
  have hnan : isNaN (fabs (fsub cand target)) = false := by
    rw [isNaN_fabs]
    exact isNaN_fadd_of_finite hcand ((finite_fneg target).trans htargetFin)
  have hnan' : isNaN (fsub target start) = false := isNaN_fadd_of_finite htargetFin ((finite_fneg start).trans hstartFin)
  have htolerance : isNaN 0x3F800000 = false := by decide
  rw [converged, Config.targetFrequencyTolerance, rangeNew_of_not_fgt (fgt_eq_false_of_fle h), hin, Bool.not_true,
    Bool.or_false, fle_of_not_nan hnan htolerance, fle_of_not_nan hnan' htolerance, hdistance]

/-- The first candidate of a descending sweep is never below the target, so it leaves the window only above the start. -/
theorem converged_first_of_descending (hstart : frequencyOk start = true) (htarget : frequencyOk target = true)
    (h : fgt start target = true) :
    let first := fadd (fsub start target) target
    converged start target first = (fgt first start || fle (fabs (fsub first target)) 0x3F800000) := by
  intro first
  have hlength := frequencyOk_fsub htarget hstart (fle_of_flt h)
  obtain ⟨hlength0, _⟩ := frequencyOk_iff.mp hlength
  have hlengthFin := finite_of_frequencyOk hlength
  have htargetFin := finite_of_frequencyOk htarget
  have hnan : isNaN first = false := isNaN_fadd_of_finite hlengthFin htargetFin
  have hlow : fle target first = true := by
    refine fle_iff.mpr ⟨isNaN_of_finite htargetFin, hnan, ?_⟩
    calc value target = roundValue (value target) 1 := (roundValue_value htargetFin).symm
      _ ≤ roundValue (value (fsub start target) + value target) 1 := roundValue_mono one_ne_zero (by omega)
      _ = value first := (value_fadd hlengthFin htargetFin).symm
  rw [converged, rangeNew_of_fgt h, rangeContains, hlow, Bool.true_and, ← fgt_eq_not_fle hnan (isNaN_of_frequencyOk hstart),
    Bool.or_comm]
  rfl

end

/-- Settles O55: the first candidate has the value of the start, and it converges exactly when the start is within 1.0 Hz. -/
theorem ascendingSweepStartsAtItsStart : Obligations.AscendingSweepStartsAtItsStart := by
  unfold Obligations.AscendingSweepStartsAtItsStart
  intro m c1 c2 s hs hlegal hpending hfin hge hle
  obtain ⟨t, he, hshaped, hmoving⟩ := proc_of_pending (c1 := c1) (c2 := c2) hs hpending hfin hge
  rw [hshaped]
  have hfirst : feq (candidate s.startFreq s.targetFreq f0) s.startFreq = true := by
    have hcand := frequencyOk_first_of_ascending hlegal.startFreq hlegal.targetFreq hle
    rw [feq_of_not_nan (isNaN_of_frequencyOk hcand) (isNaN_of_frequencyOk hlegal.startFreq), decide_eq_true_iff]
    exact value_first_of_ascending hlegal.startFreq hlegal.targetFreq hle
  rw [converged_first_of_ascending hlegal.startFreq hlegal.targetFreq hle] at hmoving
  refine ⟨t, he, hfirst, ?_⟩
  split at hmoving
  case isTrue hwithin => exact (if_pos hwithin).mpr hmoving
  case isFalse hbeyond =>
    obtain ⟨htransit, hcurrent⟩ := hmoving
    exact (if_neg hbeyond).mpr ⟨htransit, hcurrent ▸ hfirst⟩

/-- Settles O56: the first candidate of a descending sweep, and the two ways it can converge. -/
theorem descendingSweepMayBeSkipped : Obligations.DescendingSweepMayBeSkipped := by
  unfold Obligations.DescendingSweepMayBeSkipped
  intro m c1 c2 s hs hlegal hpending hfin hge hgt first
  obtain ⟨t, he, _, hmoving⟩ := proc_of_pending (c1 := c1) (c2 := c2) hs hpending hfin hge
  rw [candidate_zero_of_descending hlegal.startFreq hlegal.targetFreq hgt,
    converged_first_of_descending hlegal.startFreq hlegal.targetFreq hgt] at hmoving
  exact ⟨t, he, hmoving⟩

/-! ### The LFO that stands still (R127, R131, R200) -/

section
variable {p f fs : F32}

theorem isZero_fdiv {a b : F32} (ha : isZero a = true) (hb : finite b = true) (h0 : isZero b = false) :
    isZero (fdiv a b) = true := by
  have hmag : magPattern a = 0 := by simpa [isZero] using ha
  have hden : 0 < magnitude (magPattern b) := by
    rw [← natAbs_value]
    exact Int.natAbs_pos.mpr (value_ne_zero h0)
  rw [fdiv_of_finite (finite_of_isZero ha) hb h0, hmag, magnitude_zero, zero_mul, roundMag_zero hden]
  exact beq_iff_eq.mpr (magPattern_packF32 (by decide))

theorem isZero_of_sampleRateOk (h : sampleRateOk fs = true) : isZero fs = false := by
  obtain ⟨_, hgt⟩ := sampleRateOk_eq_true.mp h
  obtain ⟨_, _, hpos⟩ := flt_iff.mp hgt
  rw [Bool.eq_false_iff, ne_eq, ← value_eq_zero]
  exact hpos.ne'

/-- A zero of either sign added to a value without a sign changes nothing, also where that value is `+0.0`. -/
theorem fadd_zero_right {z : F32} (hp : finite p = true) (hsign : signBit p = false) (hz : isZero z = true) :
    fadd p z = p := by
  have hround := roundMag_self hp Nat.one_pos
  rw [mul_one] at hround
  have hnonneg : ¬ value p < 0 := by rw [value_nonneg hsign]; omega
  rw [fadd_of_finite hp (finite_of_isZero hz), (value_eq_zero z).mpr hz, add_zero, natAbs_value, hround, hsign,
    Bool.false_and, decide_eq_false hnonneg, ite_self, ← hsign, packF32_self]

theorem eq_f0_of_isZero (hz : isZero p = true) (hsign : signBit p = false) : p = f0 :=
  f32_ext hsign (beq_iff_eq.mp hz)

/-- The floor of a phase is `+0.0`, so its wrap is the phase itself. -/
theorem wrapPhase_of_phaseOk (h : phaseOk p = true) : wrapPhase p = p := by
  obtain ⟨hfin, hunit, hsign⟩ := phaseOk_iff.mp h
  have hfloor : ffloor p = f0 := by
    cases hz : isZero p with
    | true => rw [ffloor_of_isZero hz, eq_f0_of_isZero hz hsign]
    | false =>
      obtain ⟨_, hhigh⟩ := Bool.and_eq_true_iff.mp hunit
      obtain ⟨_, _, hlt⟩ := flt_iff.mp hhigh
      have hone : value f1 = 2 ^ 149 := by decide +kernel
      have hnonneg : 0 ≤ value p := by rw [value_nonneg hsign]; omega
      rw [ffloor_of_finite hfin hz, Int.ediv_eq_zero_of_lt hnonneg (hone ▸ hlt)]
      decide +kernel
  rw [wrapPhase, hfloor, fsub_f0 (isNaN_of_finite hfin), if_pos hunit]

/-- A generator of frequency zero keeps its phase. -/
theorem nextPhase_of_zero (hp : phaseOk p = true) (hf : isZero f = true) (hfs : sampleRateOk fs = true) :
    nextPhase p f fs = p := by
  obtain ⟨hfin, _, hsign⟩ := phaseOk_iff.mp hp
  obtain ⟨hfsfin, _⟩ := sampleRateOk_eq_true.mp hfs
  have hinc : isZero (phaseIncrement f fs) = true := isZero_fdiv hf hfsfin (isZero_of_sampleRateOk hfs)
  rw [nextPhase, fadd_zero_right hfin hsign hinc, wrapPhase_of_phaseOk hp]

theorem portBits_of_not_nan (k : Nat) {v : F32} (h : isNaN v = false) : portBits k v = v := by
  rw [portBits, h, if_neg Bool.false_ne_true]

end

section
variable {s : State} {m c1 c2 : F32}

theorem phaseOk_enterPhase (h : PhasesLegal s) : phaseOk (enterPhase s.sweep s.lfoPhase) = true := by
  rw [enterPhase_eq]
  split
  · exact phaseOk_f0
  · exact h.lfoPhase

/-- With a zero factor of either sign the LFO's frequency is a zero. -/
theorem isZero_lfoFrequency (hm : finite m = true) (hbase : finite s.lfoBaseFreq = true)
    (hzero : isZero m = true ∨ isZero s.lfoBaseFreq = true) : isZero (lfoFrequency s m) = true := by
  rw [← value_eq_zero, lfoFrequency]
  rcases hzero with hz | hz
  · exact (value_fmul_zero hz hbase).2
  · exact (value_fmul_zero hz hm).1

/-- After a PROC step 1 does nothing, as the voice is not in Pending; so a phase that stood gives the same ramp again. -/
theorem rampOf_of_same_phase {t : State} {m' : F32} (ht : t.sweep ≠ .pending)
    (h : t.lfoPhase = enterPhase s.sweep s.lfoPhase) : rampOf t m' = rampOf s m := by
  rw [rampOf_eq, rampOf_eq, enterPhase_eq t.sweep, if_neg ht, h]

theorem isNaN_rampOf (h : PhasesLegal s) : isNaN (rampOf s m) = false := by
  obtain ⟨hramp, _⟩ := rampStaysInUnit
  obtain ⟨hfin, _⟩ := phaseOk_iff.mp (hramp _ (phaseOk_enterPhase h))
  rw [rampOf_eq]
  exact isNaN_of_finite hfin

/-- What the trace shows of a sample at phase `+0.0`. -/
theorem traceOf_of_phase_zero (hlegal : RegistersLegal s) (h : enterPhase s.sweep s.lfoPhase = f0) :
    (traceOf oscWave m c1 c2 s).lfoValue = f0 ∧ (traceOf oscWave m c1 c2 s).shaped = f0 ∧
      (s.sweep ≠ .atTarget →
        (traceOf oscWave m c1 c2 s).unconstrained = candidate s.startFreq s.targetFreq f0) := by
  obtain ⟨hramp, hshaped⟩ := shapedOf_of_phase_zero (m := m) (c1 := c1) (c2 := c2) h
  have hf0 : isNaN f0 = false := by decide
  refine ⟨?lfoValue, ?shaped, fun hsweep => ?unconstrained⟩
  case lfoValue => rw [traceOf, hramp, portBits_of_not_nan _ hf0]
  case shaped => rw [traceOf, hshaped, portBits_of_not_nan _ hf0]
  case unconstrained =>
    rw [traceOf, sweepOf_unconstrained hsweep, hshaped]
    exact portBits_of_not_nan _ (isNaN_first hlegal.startFreq hlegal.targetFreq)

end

/-- Settles O59: a zero frequency gives a zero increment, the wrap of a phase is that phase, and the ramp depends on the phase
alone. -/
theorem zeroRateHoldsTheRamp : Obligations.ZeroRateHoldsTheRamp := by
  unfold Obligations.ZeroRateHoldsTheRamp
  intro m c1 c2 s hs hlegal hphases hfin hge hzero
  have hfrequency := isZero_lfoFrequency hfin (finite_of_frequencyOk hlegal.lfoBaseFreq) hzero
  have hphase : (lfoStep s m).phase = enterPhase s.sweep s.lfoPhase :=
    nextPhase_of_zero (phaseOk_enterPhase hphases) hfrequency hlegal.sampleRate
  refine ⟨_, _, traceOf oscWave m c1 c2 s, exec_proc_of_legal c1 c2 hs (frequencyOk_eq_true.mpr ⟨hfin, hge⟩),
    produceSample_responses s oscWave m c1 c2, responseStatus_responseOf _ _ _, produceSample_trace s oscWave m c1 c2,
    sweepOf_ne_pending, ?phase, fun m' => ?ramp, fun hzeroPhase => ?atZero⟩
  case phase => rw [produceSample_lfoPhase, hphase, enterPhase_eq]; rfl
  case ramp =>
    rw [rampOf_of_same_phase (m := m) sweepOf_ne_pending hphase]
    exact (portBits_of_not_nan _ (isNaN_rampOf hphases)).symm
  case atZero => exact traceOf_of_phase_zero hlegal (hphase.symm.trans hzeroPhase)

end Sys2Proof.Machine
end

section
/-! PROOFS. The status commands: the STATUS word and its read, which no flag guards (R209), ISAT whole (R212), and the agreement
of the two (R213). -/

namespace Sys2Proof.Machine

/-! ### The STATUS word (R56, R209) -/

theorem statusWord_of_initialised {s : State} (hs : s.initialised = true) :
    statusWord s = stateWord s.sweep <<< 1 ||| 1 := if_pos hs

theorem statusWord_of_uninitialised {s : State} (hs : s.initialised = false) : statusWord s = 0 := by
  rw [statusWord, hs, if_neg Bool.false_ne_true]

/-- The three values of the STATUS word of an initialised voice are distinct, and 5 is that of AtTarget. -/
theorem statusWord_eq_five {s : State} (hs : s.initialised = true) : statusWord s = 5 ↔ s.sweep = .atTarget := by
  rw [statusWord_of_initialised hs]
  cases s.sweep <;> decide

/-! ### The two commands as accepted commands -/

theorem exec_rdsr_status (s : State) : exec (.rdsr 0x00) s = .next (accept (statusWord s) s) := rfl

theorem exec_isat_of_initialised {s : State} (hs : s.initialised = true) :
    exec .isat s = .next (accept (if s.sweep = .atTarget then 1 else 0) s) :=
  congrArg Host.Outcome.next (whenInitialised_of_true hs)

theorem exec_isat_of_uninitialised {s : State} (hs : s.initialised = false) :
    exec .isat s = .next (raise .notInitialised 0 s) :=
  congrArg Host.Outcome.next (whenInitialised_of_false hs)

/-! ### The obligations -/

/-- Settles O22: the read is accepted in every state, and the STATUS word is gone through by the flag and then by `STATE`. -/
theorem statusIsAlwaysReadable : Obligations.StatusIsAlwaysReadable := by
  unfold Obligations.StatusIsAlwaysReadable
  intro s
  rw [exec_rdsr_status]
  refine congrArg (fun v => Host.Outcome.next (accept v s)) ?_
  cases hs : s.initialised with
  | false => exact statusWord_of_uninitialised hs
  | true =>
    rw [statusWord_of_initialised hs]
    cases s.sweep <;> rfl

/-- Settles O24: ISAT is accepted on an initialised voice and rejected before INIT; each writes the response port alone. -/
theorem isatReportsAtTarget : Obligations.IsatReportsAtTarget := by
  unfold Obligations.IsatReportsAtTarget
  exact fun s => ⟨exec_isat_of_initialised, exec_isat_of_uninitialised⟩

/-- Settles O25: both answers say whether the voice is in AtTarget. -/
theorem isatAgreesWithStatus : Obligations.IsatAgreesWithStatus := by
  unfold Obligations.IsatAgreesWithStatus
  intro s t u a b hs hisat hstatus ha hb
  obtain rfl := Host.Outcome.next.inj ((exec_isat_of_initialised hs).symm.trans hisat)
  obtain rfl := Host.Outcome.next.inj ((exec_rdsr_status s).symm.trans hstatus)
  obtain rfl := response_of_accepts (.isat hs) ha
  obtain rfl := response_of_accepts (.status (idx := 0x00) rfl) hb
  calc (if s.sweep = .atTarget then (1 : Word) else 0) = 1
    _ ↔ s.sweep = .atTarget := by simp
    _ ↔ statusWord s = 5 := (statusWord_eq_five hs).symm

end Sys2Proof.Machine
end

section
/-! PROOFS. Rejections, the machine's only exceptions (R217): the response is the whole effect of a rejected command. -/

namespace Sys2Proof.Machine

/-- The response a rejection has put on the port. -/
theorem response_of_raise {s : State} {why : Rejection} {number : BitVec 8} {r : Response}
    (h : (raise why number s).responses = s.responses ++ [r]) : r = responseOf (rejectionCode why) number 0 := by
  rw [raise_responses] at h
  exact (List.singleton_inj.mp (List.append_cancel_left h)).symm

/-- Settles O28: a rejection writes the response port alone, and an accepted command has status OK, so its case is none. -/
theorem rejectionHasNoOtherEffect : Obligations.RejectionHasNoOtherEffect := by
  unfold Obligations.RejectionHasNoOtherEffect
  intro i s t r h ht hstatus
  rcases exec_next_cases h with ⟨why, number, _, rfl⟩ | ⟨v, u, ha, rfl⟩
  · obtain rfl := response_of_raise ht
    exact ⟨rfl, responseOf_r1 _ _ _⟩
  · obtain rfl := response_of_accepts ha ht
    exact absurd (responseStatus_responseOf _ _ _) hstatus

end Sys2Proof.Machine
end

section
/-! PROOFS. The step of the machine: what the inputs make it do (R58, R69, R86, R241, R243), its totality (R217, R222, R262),
and the state after reset (R43, R241). -/

namespace Sys2Proof.Machine

/-! ### What is fetched from the port -/

section
variable {inputs following : List InputEvent} {i : Instr} {rest : List Word}

theorem fetch_of_command (h : decode (wordsBeforeReset inputs) = .command i rest) :
    fetch inputs = .command i (inputs.drop (commandLength i)) := by simp only [fetch, h]

theorem fetch_of_cut_short (h : decode (wordsBeforeReset inputs) = .incomplete) (hr : afterReset inputs = none) :
    fetch inputs = .waiting := by simp only [fetch, h, hr]

theorem fetch_of_reset (h : decode (wordsBeforeReset inputs) = .incomplete) (hr : afterReset inputs = some following) :
    fetch inputs = .reset following := by simp only [fetch, h, hr]

end

/-- Where no reset was asserted, every word presented arrived before it. -/
theorem wordsBeforeReset_of_words_only (ws : List Word) : wordsBeforeReset (presentWords ws) = ws := by
  simpa [wordsBeforeReset] using wordsBeforeReset_presentWords ws []

theorem afterReset_of_words_only (ws : List Word) : afterReset (presentWords ws) = none := by
  simpa [afterReset] using afterReset_presentWords ws []

theorem wordsBeforeReset_of_words_then_reset (ws : List Word) (following : List InputEvent) :
    wordsBeforeReset (presentWords ws ++ .reset :: following) = ws := by
  rw [wordsBeforeReset_presentWords, wordsBeforeReset, List.append_nil]

theorem afterReset_of_words_then_reset (ws : List Word) (following : List InputEvent) :
    afterReset (presentWords ws ++ .reset :: following) = some following := by
  rw [afterReset_presentWords, afterReset]

/-! ### One step -/

/-- Settles O13: none of the four things a step can do is a fault or a refusal. -/
theorem everyStepAnswersNext : Obligations.EveryStepAnswersNext := by
  unfold Obligations.EveryStepAnswersNext
  exact step_answers_next

/-- Settles O9: the whole command is what is fetched. -/
theorem stepRunsTheDecodedCommand : Obligations.StepRunsTheDecodedCommand := by
  unfold Obligations.StepRunsTheDecodedCommand
  intro s i rest h
  rw [step, fetch_of_command h]

/-- Settles O11: the words are all that was presented, so there is neither a command nor a reset to take. -/
theorem cutShortCommandWaits : Obligations.CutShortCommandWaits := by
  unfold Obligations.CutShortCommandWaits
  intro s ws hinputs h
  have hfetch : fetch s.inputs = .waiting := by
    rw [hinputs]
    exact fetch_of_cut_short (by rw [wordsBeforeReset_of_words_only, h]) (afterReset_of_words_only ws)
  rw [step, hfetch]

/-- Settles O12: the words before the reset are no command, so the reset is taken, and its state is that of `applyReset`. -/
theorem resetDiscardsPartialCommand : Obligations.ResetDiscardsPartialCommand := by
  unfold Obligations.ResetDiscardsPartialCommand
  intro s ws following hinputs h
  have hfetch : fetch s.inputs = .reset following := by
    rw [hinputs]
    exact fetch_of_reset (by rw [wordsBeforeReset_of_words_then_reset, h]) (afterReset_of_words_then_reset ws following)
  exact ⟨applyReset following s, by rw [step, hfetch], rfl, rfl, rfl, rfl⟩

/-! ### The state after reset (R43, R241) -/

/-- An invariant that binds an initialised voice says nothing of the state after reset. -/
theorem of_reset_initialised (P : Prop) : State.reset.initialised = true → P :=
  fun h => absurd h Bool.false_ne_true

/-- Settles O35: the ports are empty, and `INITIALISED = 0` keeps every invariant from binding. -/
theorem resetMeetsTheInvariants : Obligations.ResetMeetsTheInvariants := by
  unfold Obligations.ResetMeetsTheInvariants
  exact ⟨rfl, rfl, rfl, rfl, of_reset_initialised _, of_reset_initialised _, of_reset_initialised _, of_reset_initialised _⟩

end Sys2Proof.Machine
end

section
/-! PROOFS. PROC as the one block of pseudocode of R193: each definition of the command as the formula the block writes for it,
and the next state put together from them. -/

namespace Sys2Proof.Machine

/-! ### The window and the candidate (R106, R113, R115, R183) -/

theorem rangeNew_eq (a b : F32) : rangeNew a b = ⟨if fgt a b then b else a, if fgt a b then a else b⟩ := by
  unfold rangeNew
  split <;> rfl

theorem unitRange_low : unitRange.low = f0 := by decide +kernel

theorem rangeLength_unitRange : rangeLength unitRange = f1 := by decide +kernel

/-- The four roundings of the machine's one Scaler (R113), its input range being `[0, 1]`. -/
theorem scalerScale_windowScaler (window : Range) (v : F32) :
    scalerScale (windowScaler window) v =
      fadd (fmul (fdiv (fsub v f0) f1) (fsub window.high window.low)) window.low := by
  rw [scalerScale, windowScaler, rangeLength_unitRange, unitRange_low, rangeLength]

/-! ### The sweep and the trace's state words (R182 to R187, R195) -/

/-- Steps 5 to 8 as one choice: the voice is at its target before the command, or the candidate converged. -/
theorem sweepOf_eq (s : State) (m c1 c2 : F32) :
    let cand := candidate s.startFreq s.targetFreq (shapedOf s m c1 c2)
    let atTarget := decide (s.sweep = .atTarget) || converged s.startFreq s.targetFreq cand
    sweepOf s m c1 c2 =
      ⟨if atTarget then .atTarget else .inTransit,
        if atTarget then s.targetFreq else rangeConstrain (rangeNew s.startFreq s.targetFreq) cand,
        if s.sweep = .atTarget then s.targetFreq else portBits (s.nanDraws + 2) cand⟩ := by
  intro cand atTarget
  rcases sweepOf_cases s m c1 c2 with ⟨hat, he⟩ | ⟨hne, hconv, he⟩ | ⟨hne, hconv, he⟩
  · simp [he, atTarget, hat]
  · simp [he, atTarget, hne, cand, hconv]
  · simp [he, atTarget, hne, cand, hconv, rangeConstrain_of_contains (contains_of_not_converged hconv)]

theorem stateWord_ite (atTarget : Bool) :
    stateWord (if atTarget then .atTarget else .inTransit) = if atTarget then 2 else 1 := by
  cases atTarget <;> rfl

/-! ### The sum of the bank (R190) -/

/-- To fold the first `n` of `k` values is to fold over all `k` indices and pass over those from `n` on. -/
theorem foldl_take_ofFn {α β : Type} (g : β → α → β) {k : Nat} (f : Fin k → α) (n : Nat) (init : β) :
    ((List.ofFn f).take n).foldl g init =
      (List.finRange k).foldl (fun acc i => if i.val < n then g acc (f i) else acc) init := by
  induction k generalizing n init with
  | zero => simp
  | succ k ih =>
    cases n with
    | zero => simp
    | succ n => simp [List.ofFn_succ, List.finRange_succ, List.foldl_map, ih]

theorem toList_eq_ofFn {α : Type} {k : Nat} (xs : Vector α k) : xs.toList = List.ofFn fun i : Fin k => xs[i] :=
  List.ext_getElem (by simp) fun i _ _ => by simp

theorem bankSum_eq (wave : F32 → F32) (n : Nat) (phases : Vector F32 16) :
    bankSum wave n phases =
      (List.finRange 16).foldl (fun acc i => if i.val < n then fadd acc (wave phases[i]) else acc) f0 := by
  rw [bankSum, List.foldl_map, toList_eq_ofFn, foldl_take_ofFn]

/-! ### The whole command (R193) -/

theorem exec_proc_before_init {s : State} (m c1 c2 : F32) (hs : s.initialised = false) :
    exec (.proc m c1 c2) s = .next (raise .notInitialised 0 s) := by
  simp only [exec, execProc, whenInitialised_of_false hs]

theorem exec_proc_of_bad_multiplier {m : F32} {s : State} (c1 c2 : F32) (hs : s.initialised = true)
    (hm : frequencyOk m = false) : exec (.proc m c1 c2) s = .next (raise .invalidParameter 1 s) := by
  simp only [exec, execProc, whenInitialised_of_true hs, hm, whenValid_false]

/-- Settles O26: the two rejections, and the registers of an accepted PROC, each by the equation of its definition. -/
theorem procIsTheWholePseudocode : Obligations.ProcIsTheWholePseudocode := by
  unfold Obligations.ProcIsTheWholePseudocode
  intro m c1 c2 s legal rejectedWith phase1 flfoNow l wrap t u sh v low high cand conv atTarget clamped current count acc out
  refine ⟨exec_proc_before_init m c1 c2,
    fun hs hm => exec_proc_of_bad_multiplier c1 c2 hs (frequencyOk_eq_false.mpr hm), fun hs hm => ?accepted⟩
  have hphase : enterPhase s.sweep s.lfoPhase = phase1 := enterPhase_eq _ _
  have hramp : rampOf s m = t := by rw [rampOf_eq, hphase]; rfl
  have hshaped : shapedOf s m c1 c2 = sh := by rw [shapedOf, hramp]; rfl
  have hlfo : (lfoStep s m).phase = wrap (fadd phase1 (fdiv flfoNow s.sampleRate)) := by rw [lfoStep, hphase]; rfl
  have hwindow : rangeNew s.startFreq s.targetFreq = ⟨low, high⟩ := rangeNew_eq _ _
  have hcand : candidate s.startFreq s.targetFreq sh = cand := by
    rw [candidate, hwindow, scalerScale_windowScaler]; rfl
  have hconv : converged s.startFreq s.targetFreq cand = conv := by rw [converged, hwindow]; rfl
  have hsweep : sweepOf s m c1 c2 = ⟨if atTarget then .atTarget else .inTransit, current,
      if s.sweep = .atTarget then s.targetFreq else portBits (s.nanDraws + 2) cand⟩ := by
    rw [sweepOf_eq, hshaped, hcand, hconv, hwindow]; rfl
  have hout : outputOf oscWave s = out := by rw [outputOf, bankSum_eq]; rfl
  have hbefore : stateWord s.sweep = match s.sweep with | .pending => 0 | .inTransit => 1 | .atTarget => 2 := by
    cases s.sweep <;> rfl
  rw [exec_proc_of_legal c1 c2 hs (frequencyOk_eq_true.mpr hm), produceSample, advanceVoice, traceOf, hsweep, hlfo, hramp,
    hshaped, hout, stateWord_ite, hbefore]
  rfl

end Sys2Proof.Machine
end
